-- ==== Sys2Proof/Word.lean ====
section
/-!
DEFINITION. The word types of the core: bytes, instruction words, register indices and memory addresses.
The spec treats each of them as unsigned bits (00_scope.md R12).
-/
namespace Sys2Proof

/-- The addressable unit, and the width of a general register (R7 `BYTE`, `REG_WIDTH`). -/
abbrev Byte := BitVec 8

/-- An instruction word, a program-counter value or a stack entry (R7 `INSTR_BYTES`, `PC_WIDTH`, `STACK_ENTRY_WIDTH`). -/
abbrev Word := BitVec 16

/-- A general register's index, the fields `x` and `y` (R20, R76). Every one of the sixteen values is valid (R21). -/
abbrev RegIdx := BitVec 4

/-- A memory address, the field `nnn` (R7 `ADDR_WIDTH`, R50). -/
abbrev Addr := BitVec 12

/-- `zext_16` of a memory address (R13, R79). -/
def zext16 (a : Addr) : Word := a.zeroExtend 16

/-- `zext_16` of a byte, as the host's read port delivers narrow items (R39). -/
def byteToWord (b : Byte) : Word := b.zeroExtend 16

end Sys2Proof
end

