-- ==== Sys2Proof/Config.lean ====
section
/-!
DEFINITION. The implementation parameters of 00_scope.md R7. Every size is fixed; the two timing parameters are open, and the
spec lets no rule depend on them, so nothing in the model reads them.
-/
namespace Sys2Proof

/-- `MEM_SIZE`: bytes of memory (R7, R50). -/
def Config.memSize : Nat := 0x1000

/-- `NUM_REGS`: general registers (R7, R20). -/
def Config.numRegs : Nat := 16

/-- `STACK_DEPTH`: entries of the return-address stack (R7, R28). -/
def Config.stackDepth : Nat := 16

/-- `INSTR_BYTES`: the length of every instruction, as the program-counter increment adds it (R7, R26, R75). -/
def Config.instrBytes : Word := 2#16

/-- `FLAG_REG`: the index of the flag register VF (R7, R22). -/
def Config.flagReg : RegIdx := 0xF#4

/-- `RESET_PC`: the entry point (R7, R25). -/
def Config.resetPc : Word := 0x0000#16

/-- What `CYCLES_PER_STEP` exceeds 1 by, for each instruction word; OPEN (R7, R237, D15). -/
opaque Config.extraCycles : Word → Nat

/-- `CYCLES_PER_STEP`: any positive number, possibly different per instruction; OPEN (R7, R237, D15). -/
def Config.cyclesPerStep (w : Word) : Nat := Config.extraCycles w + 1

/-- `RESET_CYCLES`: how long a reset takes; OPEN (R7, R221, D13). -/
opaque Config.resetCycles : Nat

end Sys2Proof
end

