-- ==== Sys2Proof/Syntax.lean ====
section
/-!
DEFINITION. The instructions: one constructor per row of spec/opcode_table.json, in the table's order (30_encoding.md R80).
A constructor's operands have the widths of the fields they are read from (R76, R78), so an operand out of range
(R85: "a value out of range has no encoding") cannot be written.
-/
namespace Sys2Proof

/-- The fifteen instructions of R2 and R80. -/
inductive Instr where
  /-- HALT, word `0x0000` (R120). -/
  | halt
  /-- RET, word `0x00EE` (R122). -/
  | ret
  /-- JMP nnn, `1nnn` (R123). -/
  | jmp (nnn : Addr)
  /-- CALL nnn, `2nnn` (R124). -/
  | call (nnn : Addr)
  /-- SKIP_EQ_IMM Vx, kk, `3xkk` (R141). -/
  | skipEqImm (x : RegIdx) (kk : Byte)
  /-- SKIP_NEQ_IMM Vx, kk, `4xkk` (R142). -/
  | skipNeqImm (x : RegIdx) (kk : Byte)
  /-- SKIP_EQ_REG Vx, Vy, `5xy0` (R143). -/
  | skipEqReg (x y : RegIdx)
  /-- LOAD_IMM Vx, kk, `6xkk` (R150). -/
  | loadImm (x : RegIdx) (kk : Byte)
  /-- ADD_IMM Vx, kk, `7xkk` (R151). -/
  | addImm (x : RegIdx) (kk : Byte)
  /-- COPY Vx, Vy, `8xy0` (R161). -/
  | copy (x y : RegIdx)
  /-- OR Vx, Vy, `8xy1` (R162). -/
  | orReg (x y : RegIdx)
  /-- AND Vx, Vy, `8xy2` (R163). -/
  | andReg (x y : RegIdx)
  /-- XOR Vx, Vy, `8xy3` (R164). -/
  | xorReg (x y : RegIdx)
  /-- ADD_REG Vx, Vy, `8xy4` (R165). -/
  | addReg (x y : RegIdx)
  /-- SUB_REG Vx, Vy, `8xy5` (R166). -/
  | subReg (x y : RegIdx)
deriving DecidableEq, Repr

end Sys2Proof
end

