-- ==== Sys2Proof/WellFormed.lean ====
section
/-!
DEFINITION. Well-formedness. `Instr` carries its operands' ranges in its types, so the checks that can fail stand one level up, on
a listing line as an assembler reads it: an operation and unbounded numbers (30_encoding.md R85). The file also holds the
operation tags of the dispatch mux (40_step_fetch_decode_dispatch.md R105) and the operand formats (R78).
-/
namespace Sys2Proof

/-- The operation tags of the dispatch mux (R105) but for Unknown, which is the absence of a tag. -/
inductive Op where
  | halt | ret | jmp | call
  | skipEqImm | skipNeqImm | skipEqReg
  | loadImm | addImm
  | copy | orReg | andReg | xorReg | addReg | subReg
deriving DecidableEq, Repr

/-- The operand formats of R78. -/
inductive Format where
  /-- No operand; the whole word is fixed. -/
  | z
  /-- An address `nnn`. -/
  | a
  /-- A register `x` and an immediate `kk`. -/
  | i
  /-- Two registers `x`, `y` and a function code. -/
  | r
deriving DecidableEq, Repr

/-- The format of each operation (R78, R80). -/
def Op.format : Op → Format
  | .halt | .ret => .z
  | .jmp | .call => .a
  | .skipEqImm | .skipNeqImm | .loadImm | .addImm => .i
  | .skipEqReg | .copy | .orReg | .andReg | .xorReg | .addReg | .subReg => .r

/-- The mnemonic of each operation as spec/opcode_table.json spells it (R80, R85). -/
def Op.mnemonic : Op → String
  | .halt => "HALT"
  | .ret => "RET"
  | .jmp => "JMP"
  | .call => "CALL"
  | .skipEqImm => "SKIP_EQ_IMM"
  | .skipNeqImm => "SKIP_NEQ_IMM"
  | .skipEqReg => "SKIP_EQ_REG"
  | .loadImm => "LOAD_IMM"
  | .addImm => "ADD_IMM"
  | .copy => "COPY"
  | .orReg => "OR"
  | .andReg => "AND"
  | .xorReg => "XOR"
  | .addReg => "ADD_REG"
  | .subReg => "SUB_REG"

/-- The operation of an instruction. -/
def Instr.op : Instr → Op
  | .halt => .halt
  | .ret => .ret
  | .jmp _ => .jmp
  | .call _ => .call
  | .skipEqImm _ _ => .skipEqImm
  | .skipNeqImm _ _ => .skipNeqImm
  | .skipEqReg _ _ => .skipEqReg
  | .loadImm _ _ => .loadImm
  | .addImm _ _ => .addImm
  | .copy _ _ => .copy
  | .orReg _ _ => .orReg
  | .andReg _ _ => .andReg
  | .xorReg _ _ => .xorReg
  | .addReg _ _ => .addReg
  | .subReg _ _ => .subReg

/-- A listing line of R85: an operation and its operands as numbers, the destination or compared register first. -/
structure Listing where
  op : Op
  operands : List Nat
deriving DecidableEq, Repr

/-- Are the operands as many as the format takes, and each in its range? R85: "`nnn` 0..0xFFF, `kk` 0..0xFF, `x`, `y` 0..0xF". -/
def Listing.wellFormed (l : Listing) : Bool :=
  match l.op.format, l.operands with
  | .z, [] => true
  | .a, [nnn] => decide (nnn < 0x1000)
  | .i, [x, kk] => decide (x < 16) && decide (kk < 0x100)
  | .r, [x, y] => decide (x < 16) && decide (y < 16)
  | _, _ => false

/-- The instruction as a listing line, its operands as numbers. -/
def Instr.listing : Instr → Listing
  | .halt => { op := .halt, operands := [] }
  | .ret => { op := .ret, operands := [] }
  | .jmp n => { op := .jmp, operands := [n.toNat] }
  | .call n => { op := .call, operands := [n.toNat] }
  | .skipEqImm x k => { op := .skipEqImm, operands := [x.toNat, k.toNat] }
  | .skipNeqImm x k => { op := .skipNeqImm, operands := [x.toNat, k.toNat] }
  | .skipEqReg x y => { op := .skipEqReg, operands := [x.toNat, y.toNat] }
  | .loadImm x k => { op := .loadImm, operands := [x.toNat, k.toNat] }
  | .addImm x k => { op := .addImm, operands := [x.toNat, k.toNat] }
  | .copy x y => { op := .copy, operands := [x.toNat, y.toNat] }
  | .orReg x y => { op := .orReg, operands := [x.toNat, y.toNat] }
  | .andReg x y => { op := .andReg, operands := [x.toNat, y.toNat] }
  | .xorReg x y => { op := .xorReg, operands := [x.toNat, y.toNat] }
  | .addReg x y => { op := .addReg, operands := [x.toNat, y.toNat] }
  | .subReg x y => { op := .subReg, operands := [x.toNat, y.toNat] }

/-- An instruction is well formed when its listing line is; its field types already see to it. -/
def Instr.wellFormed (i : Instr) : Bool := i.listing.wellFormed

end Sys2Proof
end

