-- ==== Sys2Proof/Decode.lean ====
section
/-!
DEFINITION. The fixed-bitfield decoder, the dispatch mux, the opcode map and the encoder (30_encoding.md; the phases 4 and 5 of
40_step_fetch_decode_dispatch.md). The decoder is total on any bytes and rejects by name.
-/
namespace Sys2Proof

/-- The six views of an instruction word (R76); they overlap. -/
structure Fields where
  c : BitVec 4
  x : RegIdx
  y : RegIdx
  d : BitVec 4
  nnn : Addr
  kk : Byte
deriving DecidableEq, Repr

/-- The fixed-bitfield decoder: pure and total, every field for every word (R76, R77, R104). -/
def fieldsOf (w : Word) : Fields :=
  { c := w.extractLsb' 12 4
    x := w.extractLsb' 8 4
    y := w.extractLsb' 4 4
    d := w.extractLsb' 0 4
    nnn := w.extractLsb' 0 12
    kk := w.extractLsb' 0 8 }

/-- The dispatch mux, class by class (R81, R105): the operation tag of four nibbles, or none for the tag Unknown. -/
def dispatchOp (c x y d : BitVec 4) : Option Op :=
  if c = 0x0#4 then
    if x = 0x0#4 ∧ y = 0x0#4 ∧ d = 0x0#4 then some .halt
    else if x = 0x0#4 ∧ y = 0xE#4 ∧ d = 0xE#4 then some .ret
    else none
  else if c = 0x1#4 then some .jmp
  else if c = 0x2#4 then some .call
  else if c = 0x3#4 then some .skipEqImm
  else if c = 0x4#4 then some .skipNeqImm
  else if c = 0x5#4 then
    if d = 0x0#4 then some .skipEqReg else none
  else if c = 0x6#4 then some .loadImm
  else if c = 0x7#4 then some .addImm
  else if c = 0x8#4 then
    if d = 0x0#4 then some .copy
    else if d = 0x1#4 then some .orReg
    else if d = 0x2#4 then some .andReg
    else if d = 0x3#4 then some .xorReg
    else if d = 0x4#4 then some .addReg
    else if d = 0x5#4 then some .subReg
    else none
  else none

/-- The instruction of an operation tag with its operands from the fields its format names (R78, R79, R106). -/
def Op.build (o : Op) (f : Fields) : Instr :=
  match o with
  | .halt => .halt
  | .ret => .ret
  | .jmp => .jmp f.nnn
  | .call => .call f.nnn
  | .skipEqImm => .skipEqImm f.x f.kk
  | .skipNeqImm => .skipNeqImm f.x f.kk
  | .skipEqReg => .skipEqReg f.x f.y
  | .loadImm => .loadImm f.x f.kk
  | .addImm => .addImm f.x f.kk
  | .copy => .copy f.x f.y
  | .orReg => .orReg f.x f.y
  | .andReg => .andReg f.x f.y
  | .xorReg => .xorReg f.x f.y
  | .addReg => .addReg f.x f.y
  | .subReg => .subReg f.x f.y

/-- Why bytes are not an instruction. -/
inductive Reject where
  /-- The word is one of the 39166 illegal words (R84). -/
  | unknownOpcode (word : Word)
  /-- Fewer than the two bytes of an instruction (R75). -/
  | truncated
deriving DecidableEq, Repr

/-- What the decoder answers. -/
inductive Decoded (α : Type) where
  | ok (a : α)
  | rejected (why : Reject)
deriving DecidableEq, Repr

/-- Decode and dispatch of one word (R104, R105): an instruction, or the word refused as an unknown opcode (R84). -/
def decodeWord (w : Word) : Decoded Instr :=
  let f := fieldsOf w
  match dispatchOp f.c f.x f.y f.d with
  | some o => .ok (o.build f)
  | none => .rejected (.unknownOpcode w)

/-- Big-endian combination of two bytes, the one at the lower address first (R53). -/
def wordOfBytes (b0 b1 : Byte) : Word := b0 ++ b1

/-- The byte of a word that is stored at the lower address (R53). -/
def highByte (w : Word) : Byte := w.extractLsb' 8 8

/-- The byte of a word that is stored at the higher address (R53). -/
def lowByte (w : Word) : Byte := w.extractLsb' 0 8

/-- Decode the first instruction of a list of bytes, and the bytes after it. -/
def decodeBytes : List Byte → Decoded (Instr × List Byte)
  | b0 :: b1 :: rest =>
    match decodeWord (wordOfBytes b0 b1) with
    | .ok i => .ok (i, rest)
    | .rejected why => .rejected why
  | _ => .rejected .truncated

/-- The word of an instruction (R78, R80, R85). -/
def encode : Instr → Word
  | .halt => 0x0000#16
  | .ret => 0x00EE#16
  | .jmp nnn => 0x1#4 ++ nnn
  | .call nnn => 0x2#4 ++ nnn
  | .skipEqImm x kk => 0x3#4 ++ x ++ kk
  | .skipNeqImm x kk => 0x4#4 ++ x ++ kk
  | .skipEqReg x y => 0x5#4 ++ x ++ y ++ 0x0#4
  | .loadImm x kk => 0x6#4 ++ x ++ kk
  | .addImm x kk => 0x7#4 ++ x ++ kk
  | .copy x y => 0x8#4 ++ x ++ y ++ 0x0#4
  | .orReg x y => 0x8#4 ++ x ++ y ++ 0x1#4
  | .andReg x y => 0x8#4 ++ x ++ y ++ 0x2#4
  | .xorReg x y => 0x8#4 ++ x ++ y ++ 0x3#4
  | .addReg x y => 0x8#4 ++ x ++ y ++ 0x4#4
  | .subReg x y => 0x8#4 ++ x ++ y ++ 0x5#4

/-- The two bytes of an instruction as memory holds them, the lower address first (R53, R75). -/
def encodeBytes (i : Instr) : List Byte := [highByte (encode i), lowByte (encode i)]

/-- The column `match` of R80's opcode map. -/
def Op.matchBits : Op → Word
  | .halt => 0x0000#16
  | .ret => 0x00EE#16
  | .jmp => 0x1000#16
  | .call => 0x2000#16
  | .skipEqImm => 0x3000#16
  | .skipNeqImm => 0x4000#16
  | .skipEqReg => 0x5000#16
  | .loadImm => 0x6000#16
  | .addImm => 0x7000#16
  | .copy => 0x8000#16
  | .orReg => 0x8001#16
  | .andReg => 0x8002#16
  | .xorReg => 0x8003#16
  | .addReg => 0x8004#16
  | .subReg => 0x8005#16

/-- The column `mask` of R80's opcode map. -/
def Op.maskBits (o : Op) : Word :=
  match o.format with
  | .z => 0xFFFF#16
  | .a => 0xF000#16
  | .i => 0xF000#16
  | .r => 0xF00F#16

/-- Does the word match the operation's row of R80 (`word & mask == match`)? -/
def Op.matchesRow (o : Op) (w : Word) : Bool := (w &&& o.maskBits) == o.matchBits

/-- The word a well-formed listing line assembles to (R85); none for a line that is not well formed. -/
def assemble (l : Listing) : Option Word :=
  if l.wellFormed then
    match l.operands with
    | [n] => some (encode (l.op.build { c := 0, x := 0, y := 0, d := 0, nnn := BitVec.ofNat 12 n, kk := 0 }))
    | [x, k] => some (encode (l.op.build
        { c := 0, x := BitVec.ofNat 4 x, y := BitVec.ofNat 4 k, d := 0, nnn := 0, kk := BitVec.ofNat 8 k }))
    | _ => some (encode (l.op.build { c := 0, x := 0, y := 0, d := 0, nnn := 0, kk := 0 }))
  else none

/-- The low `nbits` bits of `w` as an instruction word, the bits above them zero. -/
def tableWord (nbits w : Nat) : Word := BitVec.ofNat 16 (w % 2 ^ nbits)

/-- What the decoder reads from an instruction whose bits are `w`, numbered as spec/opcode_table.json numbers them. An instruction is
one word (R75), laid out as the core stores it, high byte first (R53). -/
def decodeTableWord (nbits w : Nat) : Option Instr :=
  match decodeBytes [highByte (tableWord nbits w), lowByte (tableWord nbits w)] with
  | .ok (i, _) => some i
  | .rejected _ => none

end Sys2Proof
end

