-- ==== Sys2Proof/Machine/State.lean ====
section
/-!
DEFINITION. The state of the core (10_state.md), its reset value (R43), and the reasons a step could stop.
-/
namespace Sys2Proof.Machine

/-- What the core is doing (R33); the spec's encodings are `Status.code`. -/
inductive Status where
  /-- Reset done, no run started yet. -/
  | idle
  /-- The core executes one step after another. -/
  | running
  /-- The last run ended with HALT. -/
  | halted
  /-- The last run ended with a fault. -/
  | faulted
deriving DecidableEq, Repr

/-- What `fault_cause` records (R34, R181); the spec's codes are `FaultCause.code`. -/
inductive FaultCause where
  /-- No fault has ended a run since reset. -/
  | noFault
  /-- R182. -/
  | outOfBoundsFetch
  /-- R183. -/
  | unknownOpcode
  /-- R184. -/
  | stackOverflow
  /-- R185. -/
  | stackUnderflow
deriving DecidableEq, Repr

/-- The bytes of memory that do not read as `Memory.unlisted`, as address and byte, by rising address (R45, R50). -/
abbrev Memory := List Host.Cell

/-- What an address that is not listed reads as: the reset contents of memory (R43). -/
def Memory.unlisted : Byte := 0x00#8

/-- Canonical form from the address `lo` on: addresses strictly rising and in memory, no entry equal to what an unlisted address reads
as. -/
def Memory.wfFrom (lo : Nat) : Memory → Bool
  | [] => true
  | (a, b) :: rest =>
    decide (lo ≤ a) && decide (a < Config.memSize) && decide (b ≠ Memory.unlisted) && Memory.wfFrom (a + 1) rest

/-- The memory is in canonical form. -/
def Memory.wf (m : Memory) : Bool := Memory.wfFrom 0 m

/-- The whole state of the core: the source's Machine and the four registers of R33 to R35 (R5, R32, R37). -/
structure State where
  /-- V0 to VF (R20); the flag register VF is the last of them (R22). -/
  regs : Vector Byte 16
  /-- The program counter (R24). -/
  pc : Word
  /-- The return-address stack (R28). -/
  stack : Vector Word 16
  /-- The number of return addresses on the stack, 0 to 16 (R29, D20). -/
  sp : Fin 17
  /-- The 4096 bytes of memory (R45, R50). -/
  mem : Memory
  /-- The run status (R33). -/
  status : Status
  /-- The code of the fault that ended the last run (R34). -/
  faultCause : FaultCause
  /-- The instruction word of that fault (R35). -/
  faultWord : Word
  /-- The address of that fault's instruction (R35). -/
  faultAddr : Word
deriving DecidableEq, Repr

/-- The machine right after reset (R43, R220). -/
def State.reset : State :=
  { regs := Vector.replicate 16 0x00#8
    pc := Config.resetPc
    stack := Vector.replicate 16 0x0000#16
    sp := 0
    mem := []
    status := .idle
    faultCause := .noFault
    faultWord := 0x0000#16
    faultAddr := 0x0000#16 }

/-- Reasons a step stops without a next state. There is none: each of the spec's four faults has an entry (R190) and is taken, as a next
state whose `status` is `faulted`; a core that is not running keeps its state (R191, R210). Nobody raises one, which is safe. -/
inductive Fault where
deriving DecidableEq, Repr

/-- Reasons the model gives an instruction no meaning. -/
inductive Refusal where
  /-- Raised by `exec`'s arm of an instruction that has no meaning yet; no arm raises it. It is safe: the model stops. -/
  | notModelled (mnemonic : String)
deriving DecidableEq, Repr

/-- What the host may read (R41). The four kinds are the select codes of R39. -/
inductive ReadSelect where
  | memory (addr : Addr)
  | register (i : RegIdx)
  | stackEntry (j : BitVec 4)
  | pc
  | sp
  | status
  | faultCause
  | faultWord
  | faultAddr
deriving DecidableEq, Repr

/-- The five transactions of the host (R38). -/
inductive Transaction where
  | reset
  | writeMem (addr : Addr) (data : Byte)
  | writeReg (i : RegIdx) (data : Byte)
  | read (what : ReadSelect)
  | start
deriving DecidableEq, Repr

end Sys2Proof.Machine
end

