-- ==== Sys2Proof/Machine/Ops.lean ====
section
/-!
DEFINITION. The named operations over registers, program counter, stack and memory, the checked fetch, and fault entry. The core has no
return from a fault (60_exceptions.md R192), so none stands beside it.
-/
namespace Sys2Proof.Machine

/-- `V[i]` (R14, R20). No register is hard-wired, and every index is valid (R20, R21). -/
def State.getReg (s : State) (i : RegIdx) : Byte := s.regs[i.toNat]'(by omega)

/-- `V[i] <- v` (R14). -/
def State.setReg (s : State) (i : RegIdx) (v : Byte) : State :=
  { s with regs := s.regs.set i.toNat v (by omega) }

/-- `pc <- t` (R14). -/
def State.setPc (s : State) (t : Word) : State := { s with pc := t }

/-- The unconditional advance of phase 3 (R103), and the second advance of a taken skip (R140): a 16-bit add of 2 (R26). -/
def State.advancePc (s : State) : State := { s with pc := s.pc + Config.instrBytes }

/-- `status <- st` (R33). -/
def State.setStatus (s : State) (st : Status) : State := { s with status := st }

/-- `Push(v)` (R30), guarded by `sp >= 16` (C4); none where it raises StackOverflow, and then nothing is written. -/
def State.push (s : State) (v : Word) : Option State :=
  if h : s.sp.val < 16 then
    some { s with stack := s.stack.set s.sp.val v h, sp := ⟨s.sp.val + 1, by omega⟩ }
  else none

/-- `Pop()` (R30): the popped value and the state with `sp` lowered, the popped entry kept (D11); none where it raises
StackUnderflow. -/
def State.pop (s : State) : Option (Word × State) :=
  if h : s.sp.val = 0 then none
  else some (s.stack[s.sp.val - 1]'(by omega), { s with sp := ⟨s.sp.val - 1, by omega⟩ })

/-- Fault entry (R190): from the state at the start of the faulting step, whose pc is the address A of the instruction. Only the
fault record and `status` are written (R109). -/
def State.takeFault (s : State) (cause : FaultCause) (word : Word) : State :=
  { s with faultCause := cause, faultWord := word, faultAddr := s.pc, status := .faulted }

/-- Read one byte (R14 `MemRead` of one byte, R57). -/
def Memory.read : Memory → Nat → Byte
  | [], _ => Memory.unlisted
  | (k, b) :: rest, a => if a = k then b else Memory.read rest a

/-- Write one byte (R14 `MemWrite` of one byte), keeping the canonical form: the value an unlisted address reads as is never listed. -/
def Memory.write : Memory → Nat → Byte → Memory
  | [], a, b => if b = Memory.unlisted then [] else [(a, b)]
  | (k, v) :: rest, a, b =>
    if a < k then
      if b = Memory.unlisted then (k, v) :: rest else (a, b) :: (k, v) :: rest
    else if a = k then
      if b = Memory.unlisted then rest else (a, b) :: rest
    else (k, v) :: Memory.write rest a b

/-- `MemRead(addr, n)`: n consecutive bytes in address order (R14). -/
def Memory.readBytes (m : Memory) (addr : Nat) : Nat → List Byte
  | 0 => []
  | n + 1 => Memory.read m addr :: Memory.readBytes m (addr + 1) n

/-- `Fetch(pc)`: the big-endian word at `pc` and `pc + 1` (R53, R102). It advances nothing. -/
def State.fetchWord (s : State) : Word :=
  wordOfBytes (Memory.read s.mem s.pc.toNat) (Memory.read s.mem (s.pc.toNat + 1))

/-- The bounds check of R55 and R101: `pc + 1`, computed without wrap (D18), lies in memory. -/
def State.fetchInBounds (s : State) : Bool := decide (s.pc.toNat + 1 < Config.memSize)

/-- `FetchChecked(pc)` (R55): none where it raises OutOfBoundsFetch. There is no alignment check (R54, D3). -/
def State.fetchChecked (s : State) : Option Word :=
  if s.fetchInBounds then some s.fetchWord else none

/-- Fault entry of an out-of-bounds fetch (R182): no word was fetched, so 0x0000 is recorded (D17). -/
def State.outOfBoundsFetch (s : State) : State := s.takeFault .outOfBoundsFetch 0x0000#16

/-- Fault entry of an illegal word (R183). -/
def State.unknownOpcode (s : State) (word : Word) : State := s.takeFault .unknownOpcode word

/-- What a core that is not RUNNING does: it performs no step, and all state is kept (R33, R191, R210). -/
def State.hold (s : State) : State := s

/-- The state with an instruction word at the address the next step fetches from, and the core running: it stands for the host's load
and `start` (R225). A pc no fetch succeeds at is put to the entry point first. -/
def State.placeWord (s : State) (w : Word) : State :=
  let p := if s.fetchInBounds then s.pc else Config.resetPc
  { s with
    pc := p
    mem := Memory.write (Memory.write s.mem p.toNat (highByte w)) (p.toNat + 1) (lowByte w)
    status := .running }

end Sys2Proof.Machine
end

