-- ==== Sys2Proof/Machine/Operands.lean ====
section
/-!
DEFINITION. The operand forms of 30_encoding.md R78 and R79, and the shapes the meanings share. A meaning receives the state at the start
of its step, with pc the address A of the instruction; the operands are read from that state (R23, R107), and the effect is applied
to the state with pc advanced (R103, R106).
-/
namespace Sys2Proof.Machine

/-- The address operand `nnn`: absolute, zero-extended to 16 bits (R79). -/
def absoluteTarget (nnn : Addr) : Word := zext16 nnn

/-- The operands of format I: `V[x]` and the immediate `kk` at its own width (R79). -/
def State.operandsI (s : State) (x : RegIdx) (kk : Byte) : Byte × Byte := (s.getReg x, kk)

/-- The operands of format R: `a = V[x]` and `b = V[y]`, both as they are at the start of the step (R23, R107, R160). -/
def State.operandsR (s : State) (x y : RegIdx) : Byte × Byte := (s.getReg x, s.getReg y)

/-- Advance pc and write an ALU result to the destination `V[x]` (R103, R107). -/
def State.writeResult (s : State) (x : RegIdx) (r : Byte) : State := s.advancePc.setReg x r

/-- Advance pc, write an ALU result to `V[x]`, then a flag to VF: with x = 0xF the flag, written second, wins (R23, R107, R171). -/
def State.writeResultFlag (s : State) (x : RegIdx) (r flag : Byte) : State :=
  (s.writeResult x r).setReg Config.flagReg flag

/-- Advance pc and, where the condition holds, advance it once more: `Skip(cond)` (R140). -/
def State.skip (s : State) (cond : Bool) : State :=
  if cond then s.advancePc.advancePc else s.advancePc

end Sys2Proof.Machine
end

