-- ==== Sys2Proof/Machine/Flags.lean ====
section
/-!
DEFINITION. The ALU of 44_alu_register.md R172 and its flags. All quantities are unsigned; results are computed over the integers and then
narrowed (R13). The adder and the subtractor answer a result and an overflow or underflow indicator (R171).
-/
namespace Sys2Proof.Machine

/-- Pass the second operand (R172: LOAD_IMM, COPY). -/
def aluPass (p : Byte × Byte) : Byte := p.2

/-- Bitwise OR (R172). -/
def aluOr (p : Byte × Byte) : Byte := p.1 ||| p.2

/-- Bitwise AND (R172). -/
def aluAnd (p : Byte × Byte) : Byte := p.1 &&& p.2

/-- Bitwise exclusive OR (R172). -/
def aluXor (p : Byte × Byte) : Byte := p.1 ^^^ p.2

/-- `AddOv(a, b)`: the sum mod 256, and whether it exceeds 255 (R171). -/
def addOv (p : Byte × Byte) : Byte × Bool :=
  let sum := p.1.toNat + p.2.toNat
  (BitVec.ofNat 8 (sum % 256), decide (sum > 255))

/-- `SubOv(a, b)`: the difference mod 256, and whether `a < b` (R171): 1 on borrow (C5). -/
def subOv (p : Byte × Byte) : Byte × Bool :=
  let diff := (p.1.toNat : Int) - (p.2.toNat : Int)
  (BitVec.ofInt 8 (diff % 256), decide (p.1.toNat < p.2.toNat))

/-- Equality compare, to the pc mux and not to VF (R172). -/
def aluEqual (p : Byte × Byte) : Bool := p.1 == p.2

/-- The flag as VF holds it, 0x00 or 0x01 (R22, R171 `zext_8(f)`). -/
def flagByte (f : Bool) : Byte := if f then 0x01#8 else 0x00#8

/-- `ApplyBinary(x, y, op)` (R171): read both operands, write the result to `V[x]`, then the indicator to VF. -/
def State.applyBinary (s : State) (x y : RegIdx) (op : Byte × Byte → Byte × Bool) : State :=
  let r := op (s.operandsR x y)
  s.writeResultFlag x r.1 (flagByte r.2)

end Sys2Proof.Machine
end

