-- ==== Sys2Proof/Machine/AluRegister.lean ====
section
/-!
DEFINITION. Register-register ALU instructions, class 8 (44_alu_register.md). Only ADD_REG and SUB_REG write VF implicitly (R22).
-/
namespace Sys2Proof.Machine

/-- COPY (R161): `V[x] <- V[y]`. -/
def execCopy (x y : RegIdx) (s : State) : Host.Outcome State Fault Refusal :=
  .next (s.writeResult x (aluPass (s.operandsR x y)))

/-- OR (R162): `V[x] <- V[x] | V[y]`, VF neither set nor cleared. -/
def execOrReg (x y : RegIdx) (s : State) : Host.Outcome State Fault Refusal :=
  .next (s.writeResult x (aluOr (s.operandsR x y)))

/-- AND (R163): `V[x] <- V[x] & V[y]`, VF neither set nor cleared. -/
def execAndReg (x y : RegIdx) (s : State) : Host.Outcome State Fault Refusal :=
  .next (s.writeResult x (aluAnd (s.operandsR x y)))

/-- XOR (R164): `V[x] <- V[x] ^ V[y]`, VF neither set nor cleared. -/
def execXorReg (x y : RegIdx) (s : State) : Host.Outcome State Fault Refusal :=
  .next (s.writeResult x (aluXor (s.operandsR x y)))

/-- ADD_REG (R165): the sum mod 256 to `V[x]`, then the carry to VF. -/
def execAddReg (x y : RegIdx) (s : State) : Host.Outcome State Fault Refusal :=
  .next (s.applyBinary x y addOv)

/-- SUB_REG (R166): the difference mod 256 to `V[x]`, then the borrow to VF. -/
def execSubReg (x y : RegIdx) (s : State) : Host.Outcome State Fault Refusal :=
  .next (s.applyBinary x y subOv)

end Sys2Proof.Machine
end

