-- ==== Sys2Proof/Machine/Control.lean ====
section
/-!
DEFINITION. HALT and control transfer (41_halt_and_control_flow.md). Each meaning receives the state at the start of the step, pc being the
address A of the instruction, so that a fault leaves pc at A (R109, D4).
-/
namespace Sys2Proof.Machine

/-- HALT (R120): pc keeps the advanced value A + 2 (D8), `status` becomes HALTED, nothing else changes. -/
def execHalt (s : State) : Host.Outcome State Fault Refusal :=
  .next (s.advancePc.setStatus .halted)

/-- RET (R122): pop the return address into pc; StackUnderflow where the stack is empty (R185). -/
def execRet (s : State) : Host.Outcome State Fault Refusal :=
  match s.advancePc.pop with
  | some (target, t) => .next (t.setPc target)
  | none => .next (s.takeFault .stackUnderflow (encode .ret))

/-- JMP (R123): pc becomes the absolute target. -/
def execJmp (nnn : Addr) (s : State) : Host.Outcome State Fault Refusal :=
  .next (s.advancePc.setPc (absoluteTarget nnn))

/-- CALL (R124): push the advanced pc, then pc becomes the absolute target; StackOverflow where the stack is full (R184). -/
def execCall (nnn : Addr) (s : State) : Host.Outcome State Fault Refusal :=
  match s.advancePc.push s.advancePc.pc with
  | some t => .next (t.setPc (absoluteTarget nnn))
  | none => .next (s.takeFault .stackOverflow (encode (.call nnn)))

end Sys2Proof.Machine
end

