-- ==== Sys2Proof/Machine/Immediate.lean ====
section
/-!
DEFINITION. Register-immediate instructions (43_immediate.md). Neither writes VF implicitly.
-/
namespace Sys2Proof.Machine

/-- LOAD_IMM (R150): `V[x] <- kk`. -/
def execLoadImm (x : RegIdx) (kk : Byte) (s : State) : Host.Outcome State Fault Refusal :=
  .next (s.writeResult x (aluPass (s.operandsI x kk)))

/-- ADD_IMM (R151): `V[x] <- (V[x] + kk) mod 256`; the adder's indicator is discarded. -/
def execAddImm (x : RegIdx) (kk : Byte) (s : State) : Host.Outcome State Fault Refusal :=
  .next (s.writeResult x (addOv (s.operandsI x kk)).1)

end Sys2Proof.Machine
end

