-- ==== Sys2Proof/Machine/Skips.lean ====
section
/-!
DEFINITION. The conditional skips (42_skips.md): pc is all they write (R140).
-/
namespace Sys2Proof.Machine

/-- SKIP_EQ_IMM (R141): skip the next word if `V[x] == kk`. -/
def execSkipEqImm (x : RegIdx) (kk : Byte) (s : State) : Host.Outcome State Fault Refusal :=
  .next (s.skip (aluEqual (s.operandsI x kk)))

/-- SKIP_NEQ_IMM (R142): skip the next word if `V[x] != kk`. -/
def execSkipNeqImm (x : RegIdx) (kk : Byte) (s : State) : Host.Outcome State Fault Refusal :=
  .next (s.skip (!aluEqual (s.operandsI x kk)))

/-- SKIP_EQ_REG (R143): skip the next word if `V[x] == V[y]`. -/
def execSkipEqReg (x y : RegIdx) (s : State) : Host.Outcome State Fault Refusal :=
  .next (s.skip (aluEqual (s.operandsR x y)))

end Sys2Proof.Machine
end

