-- ==== Sys2Proof/Machine/Step.lean ====
section
/-!
DEFINITION. One step of the core (40_step_fetch_decode_dispatch.md R100): performed only while RUNNING.
-/
namespace Sys2Proof.Machine

/-- One step: bounds check and fetch (R101, R102), decode and dispatch (R104, R105), advance and effect (R103, R106). Every fault is taken
from the state at the start of the step (R109, R190). A core that is not RUNNING performs no step and keeps its state (R191, R210). -/
def step (s : State) : Host.Outcome State Fault Refusal :=
  match s.status with
  | .idle | .halted | .faulted => .next s.hold
  | .running =>
    match s.fetchChecked with
    | none => .next s.outOfBoundsFetch
    | some w =>
      match decodeWord w with
      | .ok i => exec i s
      | .rejected _ => .next (s.unknownOpcode w)

/-- The state whose next step fetches and runs the instruction with bits `w` of the opcode table. -/
def State.withFetchWord (s : State) (nbits w : Nat) : State := s.placeWord (tableWord nbits w)

end Sys2Proof.Machine
end

