-- ==== Sys2Proof/Machine/HostPort.lean ====
section
/-!
DEFINITION. The block's interface at transaction level (10_state.md R38 to R42; 70_reset_and_hazards.md R220 to R231), and the select codes
of the signal list R39. Each transaction is atomic and stands between steps (R38).
-/
namespace Sys2Proof.Machine

/-- Is the core running? (R33) -/
def State.isRunning (s : State) : Bool := s.status == .running

/-- `host_write_mem` (R40, R56): any byte of memory; ignored while RUNNING (D10). -/
def State.hostWriteMem (s : State) (addr : Addr) (data : Byte) : State :=
  if s.isRunning then s else { s with mem := Memory.write s.mem addr.toNat data }

/-- `host_write_reg` (R38, R40): any general register; ignored while RUNNING (D10). -/
def State.hostWriteReg (s : State) (i : RegIdx) (data : Byte) : State :=
  if s.isRunning then s else s.setReg i data

/-- `start` (R228): accepted in IDLE and HALTED, where it sets `status` and nothing else; ignored in RUNNING and FAULTED (R230, D9). -/
def State.hostStart (s : State) : State :=
  match s.status with
  | .idle | .halted => s.setStatus .running
  | .running | .faulted => s

/-- The encoding of `status` (R33). -/
def Status.code : Status → BitVec 2
  | .idle => 0#2
  | .running => 1#2
  | .halted => 2#2
  | .faulted => 3#2

/-- The encoding of `fault_cause` (R34, R181); 5 to 7 are never produced. -/
def FaultCause.code : FaultCause → BitVec 3
  | .noFault => 0#3
  | .outOfBoundsFetch => 1#3
  | .unknownOpcode => 2#3
  | .stackOverflow => 3#3
  | .stackUnderflow => 4#3

/-- The value of a piece of state as the read port delivers it, zero-extended where it is narrower than 16 bits (R41; R39, D16). -/
def State.readValue (s : State) : ReadSelect → Word
  | .memory a => byteToWord (Memory.read s.mem a.toNat)
  | .register i => byteToWord (s.getReg i)
  | .stackEntry j => s.stack[j.toNat]'(by omega)
  | .pc => s.pc
  | .sp => BitVec.ofNat 16 s.sp.val
  | .status => s.status.code.zeroExtend 16
  | .faultCause => s.faultCause.code.zeroExtend 16
  | .faultWord => s.faultWord
  | .faultAddr => s.faultAddr

/-- `host_read` (R41): every piece of state while the core is not running; not offered while it is (D10). -/
def State.hostRead (s : State) (what : ReadSelect) : Option Word :=
  if s.isRunning then none else some (s.readValue what)

/-- The state after a transaction (R38). A read changes nothing (R41); `reset` is accepted always (R221). -/
def State.transact (s : State) : Transaction → State
  | .reset => State.reset
  | .writeMem a b => s.hostWriteMem a b
  | .writeReg i b => s.hostWriteReg i b
  | .read _ => s
  | .start => s.hostStart

/-- The outputs the host sees at all times: `status`, `fault_cause`, `fault_word`, `fault_addr` (R41; R39, D16). -/
def State.statusOutputs (s : State) : BitVec 2 × BitVec 3 × Word × Word :=
  (s.status.code, s.faultCause.code, s.faultWord, s.faultAddr)

/-- The item that `h_sel` and `h_addr` select for reading (R39): an address, an index in bits 3:0, or a control-register number in bits
2:0; the list gives the numbers 6 and 7 no register. -/
def readSelected (hSel : BitVec 2) (hAddr : Addr) : Option ReadSelect :=
  if hSel = 0#2 then some (.memory hAddr)
  else if hSel = 1#2 then some (.register (hAddr.extractLsb' 0 4))
  else if hSel = 2#2 then some (.stackEntry (hAddr.extractLsb' 0 4))
  else
    match (hAddr.extractLsb' 0 3).toNat with
    | 0 => some .pc
    | 1 => some .sp
    | 2 => some .status
    | 3 => some .faultCause
    | 4 => some .faultWord
    | 5 => some .faultAddr
    | _ => none

/-- The transaction that `h_we` with `h_sel`, `h_addr` and `h_wdata` is (R39): a write to memory or to a register; with `h_sel` 2 or 3 it is
ignored. -/
def writeSelected (hSel : BitVec 2) (hAddr : Addr) (hWdata : Byte) : Option Transaction :=
  if hSel = 0#2 then some (.writeMem hAddr hWdata)
  else if hSel = 1#2 then some (.writeReg (hAddr.extractLsb' 0 4) hWdata)
  else none

end Sys2Proof.Machine
end

