-- ==== Sys2Proof/Safety.lean ====
section
/-!
DEFINITION. The terms claims are made in: what a step leaves as it was, the invariants of R44, histories of steps and transactions, what a run
is and how it ends (70_reset_and_hazards.md R228, R232), and which registers an instruction reads and writes (10_state.md R21).
-/
namespace Sys2Proof.Machine

/-- The words of a row of R80's opcode map: exactly the words with `word & mask == match` decode to the instruction, its operands being the
fields `x`, `y`, `nnn`, `kk` of the word. -/
def EncodedAs (mask pattern : Word) (i : Fields → Instr) : Prop :=
  ∀ w : Word, w &&& mask = pattern ↔ decodeWord w = .ok (i (fieldsOf w))

/-- Every general register but those listed holds what it held. -/
def SameRegsBut (written : List RegIdx) (s t : State) : Prop := ∀ r, r ∉ written → t.getReg r = s.getReg r

/-- Every byte of memory reads as before. -/
def SameMemory (s t : State) : Prop := ∀ a, Memory.read t.mem a = Memory.read s.mem a

/-- The stack pointer and every stack entry are as before. -/
def SameStack (s t : State) : Prop := t.sp = s.sp ∧ t.stack = s.stack

/-- The run status and the fault record are as before. -/
def SameStatus (s t : State) : Prop :=
  t.status = s.status ∧ t.faultCause = s.faultCause ∧ t.faultWord = s.faultWord ∧ t.faultAddr = s.faultAddr

/-- Everything but pc and the listed registers is as before. -/
def OnlyPcAndRegs (written : List RegIdx) (s t : State) : Prop :=
  SameRegsBut written s t ∧ SameMemory s t ∧ SameStack s t ∧ SameStatus s t

/-- `t` is `s` after the entry of a fault (R190): the record written, FAULTED, and all else as it was, pc included. -/
def FaultedFrom (cause : FaultCause) (word : Word) (s t : State) : Prop :=
  t.status = .faulted ∧ t.faultCause = cause ∧ t.faultWord = word ∧ t.faultAddr = s.pc ∧ t.pc = s.pc ∧
    SameRegsBut [] s t ∧ SameMemory s t ∧ SameStack s t

/-- The general registers an instruction reads (R21). -/
def regReads : Instr → List RegIdx
  | .halt | .ret | .jmp _ | .call _ | .loadImm _ _ => []
  | .skipEqImm x _ | .skipNeqImm x _ | .addImm x _ => [x]
  | .copy _ y => [y]
  | .skipEqReg x y | .orReg x y | .andReg x y | .xorReg x y | .addReg x y | .subReg x y => [x, y]

/-- The general registers an instruction writes (R21). -/
def regWrites : Instr → List RegIdx
  | .halt | .ret | .jmp _ | .call _ | .skipEqImm _ _ | .skipNeqImm _ _ | .skipEqReg _ _ => []
  | .loadImm x _ | .addImm x _ | .copy x _ | .orReg x _ | .andReg x _ | .xorReg x _ => [x]
  | .addReg x _ | .subReg x _ => [x, Config.flagReg]

/-- The invariants of R44, and the canonical form of memory. R44(a) and (c) hold by the types of `sp` and `faultCause`. -/
structure Inv (s : State) : Prop where
  memory : Memory.wf s.mem = true
  cause : s.faultCause = .noFault ↔ s.status ≠ .faulted
  pc : s.pc.toNat ≤ 0x1002
  stack : ∀ (j : Nat) (h : j < 16), (s.stack[j]).toNat ≤ 0x1000
  faultAddr : s.status = .faulted → s.pc = s.faultAddr

/-- The fault record fits its cause (the table of R181): what each of the five causes says of `fault_word`, `fault_addr` and the stack pointer. -/
structure RecordInv (s : State) : Prop where
  noFault : s.faultCause = .noFault → s.faultWord = 0x0000#16 ∧ s.faultAddr = 0x0000#16
  outOfBoundsFetch : s.faultCause = .outOfBoundsFetch → s.faultWord = 0x0000#16 ∧ 0x0FFF ≤ s.faultAddr.toNat
  unknownOpcode : s.faultCause = .unknownOpcode → decodeWord s.faultWord = .rejected (.unknownOpcode s.faultWord)
  stackOverflow : s.faultCause = .stackOverflow → s.sp.val = 16 ∧ ∃ nnn, decodeWord s.faultWord = .ok (.call nnn)
  stackUnderflow : s.faultCause = .stackUnderflow → s.sp.val = 0 ∧ decodeWord s.faultWord = .ok .ret

/-- One thing that happens to the core: a step of its own, or a transaction of the host (R10, R38). -/
inductive Event where
  | coreStep
  | host (t : Transaction)
deriving DecidableEq, Repr

/-- The state after an event; a step that had no next state would leave the state. -/
def State.after (s : State) : Event → State
  | .coreStep =>
    match step s with
    | .next t => t
    | .fault _ | .refused _ => s
  | .host t => s.transact t

/-- The state after a history of events, the first of the list first. -/
def State.afterAll (s : State) : List Event → State
  | [] => s
  | e :: es => (s.after e).afterAll es

/-- The states the core can be in: those that some history reaches from reset (R44). -/
def Reachable (s : State) : Prop := ∃ es, State.reset.afterAll es = s

/-- The byte an event gives the address `a`: a host write that is accepted (R40), or 0x00 by a reset (R220); none for any other event. -/
def Event.byteFor (s : State) (a : Nat) : Event → Option Byte
  | .host .reset => some 0x00#8
  | .host (.writeMem addr data) => if addr.toNat = a ∧ s.status ≠ .running then some data else none
  | .host _ | .coreStep => none

/-- The byte the events of a history gave the address `a` last, or `b` where none gave it one (R57, R60). -/
def lastByteFor (a : Nat) : State → List Event → Byte → Byte
  | _, [], b => b
  | s, e :: es, b => lastByteFor a (s.after e) es ((e.byteFor s a).getD b)

/-- The instructions are executed one after another, each from the state the one before left. -/
def execAll : List Instr → State → Host.Outcome State Fault Refusal
  | [], s => .next s
  | i :: is, s =>
    match exec i s with
    | .next t => execAll is t
    | .fault r => .fault r
    | .refused r => .refused r

/-- The state after `n` steps from a state that is RUNNING before each of them: `n` steps of a run (R228). DESIGN CHOICE (log 20): with `n` = 0
there is no step to be RUNNING before, so the answer is `s` itself whatever its status. -/
def runSteps : Nat → State → Option State
  | 0, s => some s
  | n + 1, s =>
    if s.isRunning then
      match step s with
      | .next t => runSteps n t
      | .fault _ | .refused _ => none
    else none

/-- The run from `s` has terminated normally in `t` (R228 (a), R232). DESIGN CHOICE (log 20): R232 asks that a step has executed HALT; a core that
is already HALTED counts here as halted in its own state after a run of zero steps, no `start` and no step being asked for. From an `s` that
is RUNNING, as `start` leaves it, some step has been taken. -/
def RunHalts (s t : State) : Prop := ∃ n, runSteps n s = some t ∧ t.status = .halted

/-- The run from `s` has failed in `t` (R228 (b)). DESIGN CHOICE (log 20): a core that is already FAULTED counts as failed in its own state after a
run of zero steps. -/
def RunFails (s t : State) : Prop := ∃ n, runSteps n s = some t ∧ t.status = .faulted

/-- A state no fault has been taken in; a faulted state is "not a normal program state" (R180). -/
def Safe (s : State) : Prop := s.status ≠ .faulted

end Sys2Proof.Machine
end

