-- ==== Sys2Proof/Certificates/Slice0/Obligations.lean ====
section
/-!
DEFINITION. The statements for the provers, from the numbered rules of spec/. Each docstring names the rule; where a clause rests on a
decision D<n> that the spec marks as its own, or on a log entry of the model, the docstring says so.
-/
open Sys2Proof Sys2Proof.Machine

/-! ## Encoding, decoding and dispatch (30_encoding.md) -/

/-- R76: the six fields of a word, by shift and mask as by bit range, and the two that overlap the others: `nnn` is `(x, y, d)` and `kk` is
`(y, d)`. -/
def Obligations.DecoderFieldsAreShiftsAndMasks : Prop :=
  ∀ w : Word,
    (fieldsOf w).c.toNat = w.toNat / 2 ^ 12 % 16 ∧ (fieldsOf w).x.toNat = w.toNat / 2 ^ 8 % 16 ∧
    (fieldsOf w).y.toNat = w.toNat / 2 ^ 4 % 16 ∧ (fieldsOf w).d.toNat = w.toNat % 16 ∧
    (fieldsOf w).nnn.toNat = w.toNat % 2 ^ 12 ∧ (fieldsOf w).kk.toNat = w.toNat % 2 ^ 8 ∧
    (fieldsOf w).nnn = (fieldsOf w).x ++ (fieldsOf w).y ++ (fieldsOf w).d ∧
    (fieldsOf w).kk = (fieldsOf w).y ++ (fieldsOf w).d ∧
    w = (fieldsOf w).c ++ (fieldsOf w).nnn

/-- R80: a word is recognized if and only if it matches a row of the opcode map, and it then decodes to that row's operation with the
fields of the word as its operands. -/
def Obligations.WordDecodesExactlyByItsOpcodeRow : Prop :=
  ∀ w : Word,
    (∀ o : Op, o.matchesRow w = true ↔ decodeWord w = .ok (o.build (fieldsOf w))) ∧
    ((∃ i, decodeWord w = .ok i) ↔ ∃ o : Op, o.matchesRow w = true)

/-- R82 (derived by the spec from R80): no word matches two rows of the opcode map. -/
def Obligations.OpcodeRowsArePairwiseDisjoint : Prop :=
  ∀ (w : Word) (o o' : Op), o.matchesRow w = true → o'.matchesRow w = true → o = o'

/-- The table of illegal words of 30_encoding.md section 4: class 0 but for two words, class 5 with `d` not 0, class 8 with `d` at least 6, and
classes 9 to F; each is rejected as an unknown opcode, and no other word is. -/
def Obligations.IllegalWordsAreExactlyTheListed : Prop :=
  ∀ w : Word, decodeWord w = .rejected (.unknownOpcode w) ↔
    (w.toNat < 0x1000 ∧ w.toNat ≠ 0x0000 ∧ w.toNat ≠ 0x00EE) ∨
    (0x5000 ≤ w.toNat ∧ w.toNat < 0x6000 ∧ w.toNat % 16 ≠ 0) ∨
    (0x8000 ≤ w.toNat ∧ w.toNat < 0x9000 ∧ 6 ≤ w.toNat % 16) ∨
    0x9000 ≤ w.toNat

/-- Decode and encode agree: every instruction, with every operand, is read back from its word, and from its bytes whatever follows them. -/
def Obligations.DecodingAnEncodedInstructionGivesItBack : Prop :=
  ∀ (i : Instr) (rest : List Byte),
    decodeWord (encode i) = .ok i ∧ decodeBytes (encodeBytes i ++ rest) = .ok (i, rest)

/-- R82's last part: there are no ignored bits, so a recognized word is the only word of its instruction. -/
def Obligations.RecognizedWordIsItsInstructionsOnlyWord : Prop :=
  ∀ (w : Word) (i : Instr), decodeWord w = .ok i → encode i = w

/-- Words of 95_test_vectors.md, one or more for each family of the opcode table: `0x2100` of sections 2.1 and 2.4, the others, with the refusals
beside them, of section 2.3. Where those tables give the tag only, the operands are the fields of 30_encoding.md section 3. -/
def Obligations.SampleWordsDecodeAsListed : Prop :=
  decodeWord 0x0000#16 = .ok .halt ∧ decodeWord 0x00EE#16 = .ok .ret ∧
  decodeWord 0x2100#16 = .ok (.call 0x100#12) ∧ decodeWord 0x1FFF#16 = .ok (.jmp 0xFFF#12) ∧
  decodeWord 0x3F01#16 = .ok (.skipEqImm 0xF#4 0x01#8) ∧ decodeWord 0x5120#16 = .ok (.skipEqReg 0x1#4 0x2#4) ∧
  decodeWord 0x6AFF#16 = .ok (.loadImm 0xA#4 0xFF#8) ∧ decodeWord 0x8AB5#16 = .ok (.subReg 0xA#4 0xB#4) ∧
  decodeWord 0x00E0#16 = .rejected (.unknownOpcode 0x00E0#16) ∧
  decodeWord 0x5121#16 = .rejected (.unknownOpcode 0x5121#16) ∧
  decodeWord 0x8AB6#16 = .rejected (.unknownOpcode 0x8AB6#16)

/-- The assembler syntax of 30_encoding.md section 5 (the spec's decision D14): a listing line assembles exactly when its operands are as many
as the format takes and in range, each to the word that decodes to that line. -/
def Obligations.ListingAssemblesExactlyWhenInRange : Prop :=
  ∀ l : Listing,
    (l.wellFormed = true ↔ ∃ w, assemble l = some w) ∧
    (∀ w, assemble l = some w → ∃ i, decodeWord w = .ok i ∧ i.listing = l)

/-! ## Fetch, step and commit (20_memory.md, 40_step_fetch_decode_dispatch.md) -/

/-- R53 and R102: where both bytes are in memory, the fetched word is big-endian; `c` and `x` are the nibbles of the byte at pc, `y` and `d` those
of the byte after it, and `kk` is that byte. -/
def Obligations.FetchedWordIsBigEndian : Prop :=
  ∀ s : State, s.pc.toNat + 1 < 0x1000 → ∃ w, s.fetchChecked = some w ∧
    w.toNat = (Memory.read s.mem s.pc.toNat).toNat * 256 + (Memory.read s.mem (s.pc.toNat + 1)).toNat ∧
    (fieldsOf w).c ++ (fieldsOf w).x = Memory.read s.mem s.pc.toNat ∧
    (fieldsOf w).y ++ (fieldsOf w).d = Memory.read s.mem (s.pc.toNat + 1) ∧
    (fieldsOf w).kk = Memory.read s.mem (s.pc.toNat + 1)

/-- 40_step_fetch_decode_dispatch.md section 1: while RUNNING, where the bytes at pc decode to an instruction, the step is the execution of that
instruction from the same state. Nothing stands around `exec`: the advance of pc is in the meanings (log 7). -/
def Obligations.StepRunsTheDecodedInstruction : Prop :=
  ∀ (s : State) (i : Instr), s.status = .running → s.pc.toNat + 1 < 0x1000 →
    decodeBytes [Memory.read s.mem s.pc.toNat, Memory.read s.mem (s.pc.toNat + 1)] = .ok (i, []) →
    step s = exec i s

/-- Out-of-bounds fetch (60_exceptions.md sections 1 and 2): while RUNNING with pc at 0x0FFF or above, whatever memory holds, the step takes the
fault, records pc and the word 0x0000, and changes nothing else. The record and its word, the unchanged pc and the sum without wrap are
the spec's decisions D4, D6, D17 and D18. -/
def Obligations.StepTakesOutOfBoundsFetch : Prop :=
  ∀ s : State, s.status = .running → 0x0FFF ≤ s.pc.toNat →
    ∃ t, step s = .next t ∧ FaultedFrom .outOfBoundsFetch 0x0000#16 s t

/-- Unknown opcode (60_exceptions.md sections 1 and 2): while RUNNING, an illegal word at a pc that can be fetched from is recorded with its
address, and nothing else changes. The record and the unchanged pc are the spec's decisions D4 and D6. -/
def Obligations.StepTakesUnknownOpcode : Prop :=
  ∀ (s : State) (w : Word), s.status = .running → s.pc.toNat + 1 < 0x1000 →
    w = wordOfBytes (Memory.read s.mem s.pc.toNat) (Memory.read s.mem (s.pc.toNat + 1)) →
    decodeWord w = .rejected (.unknownOpcode w) →
    ∃ t, step s = .next t ∧ FaultedFrom .unknownOpcode w s t

/-- A core that is not RUNNING performs no step and keeps all its state (10_state.md section 4, 60_exceptions.md sections 2 and 4). That `step`
answers the same state there is the model's reading (log 1). -/
def Obligations.StoppedCoreKeepsItsState : Prop :=
  ∀ s : State, s.status ≠ .running → step s = .next s

/-- R111 (derived by the spec) for the states that are RUNNING: a step is defined and has exactly one next state. The statement is wider than the
rule by the model's own reading: that `step` answers a next state while IDLE, HALTED or FAULTED too is log 1, and that a fault is a next state and
no stop of the model is log 6. -/
def Obligations.EveryStepHasANextState : Prop :=
  ∀ s : State, ∃ t, step s = .next t ∧ ∀ u, step s = .next u → u = t

/-- The program-counter mux (10_state.md section 2): after a step that completes, pc is A + 2, A + 4, the zero-extended `nnn` or the popped return
address, by the operation; the two sums do not wrap. After HALT it is A + 2 by the spec's decision D8. -/
def Obligations.ProgramCounterMuxSelectsByOperation : Prop :=
  ∀ (s t : State) (i : Instr), s.status = .running → s.fetchChecked = some (encode i) → step s = .next t → t.status ≠ .faulted →
    match i with
    | .jmp nnn | .call nnn => t.pc.toNat = nnn.toNat
    | .ret => ∃ (n : Nat) (h : n < 16), s.sp.val = n + 1 ∧ t.pc = s.stack[n]
    | .skipEqImm x kk => t.pc.toNat = s.pc.toNat + (if s.getReg x = kk then 4 else 2)
    | .skipNeqImm x kk => t.pc.toNat = s.pc.toNat + (if s.getReg x ≠ kk then 4 else 2)
    | .skipEqReg x y => t.pc.toNat = s.pc.toNat + (if s.getReg x = s.getReg y then 4 else 2)
    | .halt | .loadImm _ _ | .addImm _ _ | .copy _ _ | .orReg _ _ | .andReg _ _ | .xorReg _ _ | .addReg _ _ | .subReg _ _ =>
      t.pc.toNat = s.pc.toNat + 2

/-- Faults are precise (40_step_fetch_decode_dispatch.md section 3): whatever fault a running step takes, the registers, memory, stack, sp and pc
are as before it. That pc is not advanced is the spec's decision D4. -/
def Obligations.FaultsArePrecise : Prop :=
  ∀ s t : State, s.status = .running → step s = .next t → t.status = .faulted →
    FaultedFrom t.faultCause t.faultWord s t ∧ t.faultCause ≠ .noFault

/-- Which event stops the core (40_step_fetch_decode_dispatch.md section 3, 60_exceptions.md section 1): a running step ends in HALTED exactly when
it executes the halt word; in a fault exactly for the fetch out of bounds, an illegal word, CALL on a full stack or RET on an empty one, each
with its own cause, no fault being taken without one of the four; and otherwise the core goes on running. The causes as a register, and
their numbering, are the spec's decisions D6 and D7. -/
def Obligations.RunningCoreStopsOnlyOnHaltOrAFault : Prop :=
  ∀ s t : State, s.status = .running → step s = .next t →
    (t.status = .halted ↔ s.fetchChecked = some 0x0000#16) ∧
    (t.status = .faulted ∧ t.faultCause = .outOfBoundsFetch ↔ 0x0FFF ≤ s.pc.toNat) ∧
    (t.status = .faulted ∧ t.faultCause = .unknownOpcode ↔
      ∃ w, s.fetchChecked = some w ∧ decodeWord w = .rejected (.unknownOpcode w)) ∧
    (t.status = .faulted ∧ t.faultCause = .stackOverflow ↔
      ∃ nnn : Addr, s.fetchChecked = some (0x2#4 ++ nnn) ∧ s.sp.val = 16) ∧
    (t.status = .faulted ∧ t.faultCause = .stackUnderflow ↔ s.fetchChecked = some 0x00EE#16 ∧ s.sp.val = 0) ∧
    (t.status = .faulted → t.faultCause ≠ .noFault) ∧
    (t.status = .running ∨ t.status = .halted ∨ t.status = .faulted)

/-- A step depends on memory only through the two bytes at pc (20_memory.md section 3, 30_encoding.md section 4: an illegal word that is never
fetched is harmless): with any other memory that agrees there, it does the same to everything else. -/
def Obligations.StepDependsOnlyOnTheFetchedBytes : Prop :=
  ∀ (s t : State) (m : Memory),
    Memory.read m s.pc.toNat = Memory.read s.mem s.pc.toNat →
    Memory.read m (s.pc.toNat + 1) = Memory.read s.mem (s.pc.toNat + 1) →
    step s = .next t → step { s with mem := m } = .next { t with mem := m }

/-! ## Invariants (10_state.md section 8) -/

/-- The invariants hold at reset, and so does what is said of the fault record (the spec's decisions D5 and D6 for its values). -/
def Obligations.InvariantsHoldAtReset : Prop := Inv State.reset ∧ RecordInv State.reset

/-- Every step keeps the invariants, from every state that meets them. -/
def Obligations.StepKeepsTheInvariants : Prop :=
  ∀ s t : State, Inv s → step s = .next t → Inv t

/-- Every transaction of the host keeps the invariants. -/
def Obligations.TransactionsKeepTheInvariants : Prop :=
  ∀ (s : State) (tr : Transaction), Inv s → Inv (s.transact tr)

/-- The record of the last fault (the table of 60_exceptions.md section 1) as an invariant of its own: every step, from every state that meets the
invariants and holds a record that fits its cause, answers a state whose record fits its cause. The record and its codes, and the word of a
fetch fault, are the spec's decisions D6, D7 and D17. -/
def Obligations.StepKeepsTheFaultRecord : Prop :=
  ∀ s t : State, Inv s → RecordInv s → step s = .next t → RecordInv t

/-- Every transaction of the host keeps the fault record fitting its cause (the spec's decisions D6, D7, D9 and D17). -/
def Obligations.TransactionsKeepTheFaultRecord : Prop :=
  ∀ (s : State) (tr : Transaction), Inv s → RecordInv s → RecordInv (s.transact tr)

/-- R44 (derived by the spec): the invariants hold in every state that steps and transactions reach from reset, and in each of them the fault
record is the one the table of 60_exceptions.md section 1 gives its cause. The record and its codes, and the word of a fetch fault, are
the spec's decisions D6, D7 and D17. -/
def Obligations.InvariantsHoldInEveryReachableState : Prop :=
  ∀ s : State, Reachable s →
    Inv s ∧ (s.faultCause = .noFault → s.faultWord = 0x0000#16 ∧ s.faultAddr = 0x0000#16) ∧
    (s.faultCause = .outOfBoundsFetch → s.faultWord = 0x0000#16 ∧ 0x0FFF ≤ s.faultAddr.toNat) ∧
    (s.faultCause = .unknownOpcode → decodeWord s.faultWord = .rejected (.unknownOpcode s.faultWord)) ∧
    (s.faultCause = .stackOverflow → s.sp.val = 16 ∧ ∃ nnn, decodeWord s.faultWord = .ok (.call nnn)) ∧
    (s.faultCause = .stackUnderflow → s.sp.val = 0 ∧ decodeWord s.faultWord = .ok .ret)

/-! ## HALT and control transfer (41_halt_and_control_flow.md) -/

/-- HALT (section 1): it completes from every state; `status` becomes HALTED, pc is A + 2 (the spec's decision D8), nothing else changes. -/
def Obligations.HaltStopsTheRunAndAdvances : Prop :=
  EncodedAs 0xFFFF#16 0x0000#16 (fun _ => .halt) ∧
  ∀ s : State, ∃ t, exec .halt s = .next t ∧ t.status = .halted ∧ t.pc = s.pc + 2#16 ∧
    SameRegsBut [] s t ∧ SameMemory s t ∧ SameStack s t ∧
    t.faultCause = s.faultCause ∧ t.faultWord = s.faultWord ∧ t.faultAddr = s.faultAddr

/-- RET (section 2) with a return address on the stack: pc is the popped entry, sp one less; the popped entry is kept (the spec's decision D11),
and nothing else changes. -/
def Obligations.RetPopsTheReturnAddress : Prop :=
  EncodedAs 0xFFFF#16 0x00EE#16 (fun _ => .ret) ∧
  ∀ (s : State) (n : Nat) (h : n < 16), s.sp.val = n + 1 →
    ∃ t, exec .ret s = .next t ∧ t.pc = s.stack[n] ∧ t.sp.val = n ∧ t.stack = s.stack ∧
      SameRegsBut [] s t ∧ SameMemory s t ∧ SameStatus s t

/-- RET on an empty stack (section 2; 60_exceptions.md section 1): StackUnderflow with the word 0x00EE; nothing else changes, pc included (the
spec's decisions D4, D6, D7). -/
def Obligations.RetOnAnEmptyStackUnderflows : Prop :=
  ∀ s : State, s.sp.val = 0 → ∃ t, exec .ret s = .next t ∧ FaultedFrom .stackUnderflow 0x00EE#16 s t

/-- R123: JMP completes from every state; pc is the absolute target zero-extended, odd or out of fetch's reach as it may be, and registers,
memory, stack and status are as before. -/
def Obligations.JmpLoadsTheAbsoluteTarget : Prop :=
  EncodedAs 0xF000#16 0x1000#16 (fun f => .jmp f.nnn) ∧
  ∀ (nnn : Addr) (s : State), ∃ t, exec (.jmp nnn) s = .next t ∧ t.pc.toNat = nnn.toNat ∧ OnlyPcAndRegs [] s t

/-- CALL (section 4) with room on the stack: the entry at sp holds A + 2, every other entry is kept, sp is one more, pc is the absolute
target, and nothing else changes. -/
def Obligations.CallPushesTheReturnAddress : Prop :=
  EncodedAs 0xF000#16 0x2000#16 (fun f => .call f.nnn) ∧
  ∀ (nnn : Addr) (s : State), s.sp.val < 16 →
    ∃ t, exec (.call nnn) s = .next t ∧ t.pc.toNat = nnn.toNat ∧ t.sp.val = s.sp.val + 1 ∧
      (∀ (j : Nat) (h : j < 16), t.stack[j] = if j = s.sp.val then s.pc + 2#16 else s.stack[j]) ∧
      SameRegsBut [] s t ∧ SameMemory s t ∧ SameStatus s t

/-- CALL on a full stack (section 4; 60_exceptions.md section 1): StackOverflow with the CALL word `2nnn`; no entry is written, nothing else
changes, pc included (the spec's decisions D4, D6, D7). -/
def Obligations.CallOnAFullStackOverflows : Prop :=
  ∀ (nnn : Addr) (s : State), s.sp.val = 16 →
    ∃ t, exec (.call nnn) s = .next t ∧ FaultedFrom .stackOverflow (0x2#4 ++ nnn) s t

/-- R125 (derived by the spec): after a CALL at A, a RET in any later state with the same sp and the same entry below it goes to A + 2 and
gives sp its value before the CALL. -/
def Obligations.RetAfterCallReturnsBehindTheCall : Prop :=
  ∀ (nnn : Addr) (s u v : State) (n : Nat) (h : n < 16), s.sp.val = n → exec (.call nnn) s = .next u →
    v.sp = u.sp → v.stack[n] = u.stack[n] →
    ∃ t, exec .ret v = .next t ∧ t.pc = s.pc + 2#16 ∧ t.sp = s.sp

/-- R126 (derived by the spec): from an empty stack, as many CALLs as the stack holds all complete, whatever their targets; one more
overflows. -/
def Obligations.SixteenNestedCallsFitAndOneMoreOverflows : Prop :=
  ∀ (targets : List Addr) (nnn : Addr) (s : State), s.sp.val = 0 → targets.length = 16 →
    ∃ t u, execAll (targets.map .call) s = .next t ∧ t.sp.val = 16 ∧ SameStatus s t ∧
      exec (.call nnn) t = .next u ∧ FaultedFrom .stackOverflow (0x2#4 ++ nnn) t u

/-! ## Conditional skips (42_skips.md) -/

/-- R141: SKIP_EQ_IMM completes from every state; pc is A + 4 where `V[x] == kk` and A + 2 otherwise, and nothing else is written. -/
def Obligations.SkipEqImmSkipsOnEqualImmediate : Prop :=
  EncodedAs 0xF000#16 0x3000#16 (fun f => .skipEqImm f.x f.kk) ∧
  ∀ (x : RegIdx) (kk : Byte) (s : State), ∃ t, exec (.skipEqImm x kk) s = .next t ∧
    (s.getReg x = kk → t.pc = s.pc + 4#16) ∧ (s.getReg x ≠ kk → t.pc = s.pc + 2#16) ∧ OnlyPcAndRegs [] s t

/-- R142: SKIP_NEQ_IMM completes from every state; pc is A + 4 where `V[x] != kk` and A + 2 otherwise, so exactly one of it and SKIP_EQ_IMM skips;
nothing else is written. -/
def Obligations.SkipNeqImmSkipsOnDifferentImmediate : Prop :=
  EncodedAs 0xF000#16 0x4000#16 (fun f => .skipNeqImm f.x f.kk) ∧
  ∀ (x : RegIdx) (kk : Byte) (s : State), ∃ t u, exec (.skipNeqImm x kk) s = .next t ∧ exec (.skipEqImm x kk) s = .next u ∧
    (s.getReg x ≠ kk → t.pc = s.pc + 4#16 ∧ u.pc = s.pc + 2#16) ∧
    (s.getReg x = kk → t.pc = s.pc + 2#16 ∧ u.pc = s.pc + 4#16) ∧ OnlyPcAndRegs [] s t

/-- R143: SKIP_EQ_REG completes from every state; pc is A + 4 where `V[x] == V[y]` (always where x = y) and A + 2 otherwise; a class-5 word with
`d` not 0 is rejected, and so is every class-9 word; nothing else is written. -/
def Obligations.SkipEqRegSkipsOnEqualRegisters : Prop :=
  EncodedAs 0xF00F#16 0x5000#16 (fun f => .skipEqReg f.x f.y) ∧
  (∀ w : Word, w &&& 0xF000#16 = 0x5000#16 → w &&& 0x000F#16 ≠ 0x0000#16 → decodeWord w = .rejected (.unknownOpcode w)) ∧
  (∀ w : Word, w &&& 0xF000#16 = 0x9000#16 → decodeWord w = .rejected (.unknownOpcode w)) ∧
  ∀ (x y : RegIdx) (s : State), ∃ t, exec (.skipEqReg x y) s = .next t ∧
    (s.getReg x = s.getReg y → t.pc = s.pc + 4#16) ∧ (s.getReg x ≠ s.getReg y → t.pc = s.pc + 2#16) ∧ OnlyPcAndRegs [] s t

/-! ## Register-immediate instructions (43_immediate.md) -/

/-- R150: LOAD_IMM completes from every state; `V[x]` is `kk`, VF included as x = 0xF, pc is A + 2, nothing else changes. -/
def Obligations.LoadImmWritesTheImmediate : Prop :=
  EncodedAs 0xF000#16 0x6000#16 (fun f => .loadImm f.x f.kk) ∧
  ∀ (x : RegIdx) (kk : Byte) (s : State), ∃ t, exec (.loadImm x kk) s = .next t ∧
    t.getReg x = kk ∧ t.pc = s.pc + 2#16 ∧ OnlyPcAndRegs [x] s t

/-- R151: ADD_IMM completes from every state; `V[x]` is the sum mod 256, VF is untouched unless x = 0xF, pc is A + 2, nothing else changes. -/
def Obligations.AddImmWrapsWithoutAFlag : Prop :=
  EncodedAs 0xF000#16 0x7000#16 (fun f => .addImm f.x f.kk) ∧
  ∀ (x : RegIdx) (kk : Byte) (s : State), ∃ t, exec (.addImm x kk) s = .next t ∧
    (t.getReg x).toNat = ((s.getReg x).toNat + kk.toNat) % 256 ∧ t.pc = s.pc + 2#16 ∧ OnlyPcAndRegs [x] s t

/-! ## Register-register ALU instructions (44_alu_register.md) -/

/-- R161: COPY completes from every state; `V[x]` is the old `V[y]`, pc is A + 2, nothing else changes, VF neither unless x = 0xF. -/
def Obligations.CopyWritesTheSourceRegister : Prop :=
  EncodedAs 0xF00F#16 0x8000#16 (fun f => .copy f.x f.y) ∧
  ∀ (x y : RegIdx) (s : State), ∃ t, exec (.copy x y) s = .next t ∧
    t.getReg x = s.getReg y ∧ t.pc = s.pc + 2#16 ∧ OnlyPcAndRegs [x] s t

/-- R162: OR completes from every state; each bit of `V[x]` is set where it was set in `V[x]` or `V[y]`, pc is A + 2, nothing else changes, VF neither
unless x = 0xF. -/
def Obligations.OrWritesTheBitwiseOr : Prop :=
  EncodedAs 0xF00F#16 0x8001#16 (fun f => .orReg f.x f.y) ∧
  ∀ (x y : RegIdx) (s : State), ∃ t, exec (.orReg x y) s = .next t ∧
    (∀ k, (t.getReg x).getLsbD k = ((s.getReg x).getLsbD k || (s.getReg y).getLsbD k)) ∧
    (x = y → t.getReg x = s.getReg x) ∧ t.pc = s.pc + 2#16 ∧ OnlyPcAndRegs [x] s t

/-- R163: AND completes from every state; each bit of `V[x]` is set where it was set in `V[x]` and `V[y]`, pc is A + 2, nothing else changes, VF
neither unless x = 0xF. -/
def Obligations.AndWritesTheBitwiseAnd : Prop :=
  EncodedAs 0xF00F#16 0x8002#16 (fun f => .andReg f.x f.y) ∧
  ∀ (x y : RegIdx) (s : State), ∃ t, exec (.andReg x y) s = .next t ∧
    (∀ k, (t.getReg x).getLsbD k = ((s.getReg x).getLsbD k && (s.getReg y).getLsbD k)) ∧
    (x = y → t.getReg x = s.getReg x) ∧ t.pc = s.pc + 2#16 ∧ OnlyPcAndRegs [x] s t

/-- R164: XOR completes from every state; each bit of `V[x]` is set where `V[x]` and `V[y]` differed, so x = y clears it; pc is A + 2, nothing else
changes, VF neither unless x = 0xF. -/
def Obligations.XorWritesTheBitwiseDifference : Prop :=
  EncodedAs 0xF00F#16 0x8003#16 (fun f => .xorReg f.x f.y) ∧
  ∀ (x y : RegIdx) (s : State), ∃ t, exec (.xorReg x y) s = .next t ∧
    (∀ k, (t.getReg x).getLsbD k = ((s.getReg x).getLsbD k != (s.getReg y).getLsbD k)) ∧
    (x = y → t.getReg x = 0x00#8) ∧ t.pc = s.pc + 2#16 ∧ OnlyPcAndRegs [x] s t

/-- R165: ADD_REG completes from every state; with a and b the old `V[x]` and `V[y]`, `V[x]` is (a + b) mod 256 and VF is 1 where a + b > 255 and 0
otherwise; with x = 0xF the flag wins; pc is A + 2, nothing else changes. -/
def Obligations.AddRegWritesSumThenCarry : Prop :=
  EncodedAs 0xF00F#16 0x8004#16 (fun f => .addReg f.x f.y) ∧
  ∀ (x y : RegIdx) (s : State), ∃ t, exec (.addReg x y) s = .next t ∧
    (x ≠ 0xF#4 → (t.getReg x).toNat = ((s.getReg x).toNat + (s.getReg y).toNat) % 256) ∧
    t.getReg 0xF#4 = (if (s.getReg x).toNat + (s.getReg y).toNat > 255 then 0x01#8 else 0x00#8) ∧
    t.pc = s.pc + 2#16 ∧ OnlyPcAndRegs [x, 0xF#4] s t

/-- R166: SUB_REG completes from every state; with a and b the old `V[x]` and `V[y]`, `V[x]` is (a - b) mod 256 and VF is 1 where a < b and 0 otherwise;
with x = 0xF the flag wins; pc is A + 2, nothing else changes. -/
def Obligations.SubRegWritesDifferenceThenBorrow : Prop :=
  EncodedAs 0xF00F#16 0x8005#16 (fun f => .subReg f.x f.y) ∧
  ∀ (x y : RegIdx) (s : State), ∃ t, exec (.subReg x y) s = .next t ∧
    (x ≠ 0xF#4 → ((t.getReg x).toNat : Int) = (((s.getReg x).toNat : Int) - (s.getReg y).toNat) % 256) ∧
    t.getReg 0xF#4 = (if (s.getReg x).toNat < (s.getReg y).toNat then 0x01#8 else 0x00#8) ∧
    t.pc = s.pc + 2#16 ∧ OnlyPcAndRegs [x, 0xF#4] s t

/-- R173 (derived by the spec): result and flag of ADD_REG and of SUB_REG together are the exact sum and difference, x not being 0xF. -/
def Obligations.ResultAndFlagGiveTheExactValue : Prop :=
  ∀ (x y : RegIdx) (s : State), x ≠ 0xF#4 → ∃ t u, exec (.addReg x y) s = .next t ∧ exec (.subReg x y) s = .next u ∧
    (t.getReg x).toNat + 256 * (t.getReg 0xF#4).toNat = (s.getReg x).toNat + (s.getReg y).toNat ∧
    ((u.getReg x).toNat : Int) - 256 * (u.getReg 0xF#4).toNat = ((s.getReg x).toNat : Int) - (s.getReg y).toNat

/-- R173's last law (derived by the spec): with x, y and 0xF three different indices, SUB_REG and then ADD_REG of the same operands restore
`V[x]`, and the two flags are equal. -/
def Obligations.SubThenAddRestoresTheRegister : Prop :=
  ∀ (x y : RegIdx) (s : State), x ≠ y → x ≠ 0xF#4 → y ≠ 0xF#4 →
    ∃ t u, exec (.subReg x y) s = .next t ∧ exec (.addReg x y) t = .next u ∧
      u.getReg x = s.getReg x ∧ u.getReg 0xF#4 = t.getReg 0xF#4

/-! ## Which registers an instruction reads and writes (10_state.md section 1) -/

/-- What an instruction writes: no general register that the table of 10_state.md section 1 does not list for it; no byte of memory (20_memory.md
section 3); the stack and sp by CALL and RET only (10_state.md section 3); `status` by HALT and a fault, and the fault record by a fault
(10_state.md section 4), of which only CALL and RET can raise one (60_exceptions.md section 1; the table of
40_step_fetch_decode_dispatch.md section 2). `status` and the record as registers are the spec's decisions D5 and D6. -/
def Obligations.InstructionsWriteOnlyTheirListedState : Prop :=
  ∀ (i : Instr) (s t : State), exec i s = .next t →
    SameRegsBut (regWrites i) s t ∧ SameMemory s t ∧
    (i.op ≠ .call → i.op ≠ .ret → SameStack s t) ∧
    (i.op ≠ .halt → i.op ≠ .call → i.op ≠ .ret → SameStatus s t)

/-- The same table, column "reads": a register an instruction does not read has no influence on what the instruction does; only the register
itself, if it is not written, still differs afterwards. -/
def Obligations.InstructionsReadOnlyTheirListedRegisters : Prop :=
  ∀ (i : Instr) (s t : State) (r : RegIdx) (v : Byte), r ∉ regReads i → exec i s = .next t →
    ∃ u, exec i (s.setReg r v) = .next u ∧ u.pc = t.pc ∧ SameStack t u ∧ SameStatus t u ∧ SameMemory t u ∧
      (∀ q, q ∈ regWrites i ∨ q ≠ r → u.getReg q = t.getReg q) ∧ (r ∉ regWrites i → u.getReg r = v)

/-- R22: the flag lives in VF. ADD_REG and SUB_REG always write it, with 0x01 on overflow of the addition and on borrow of the subtraction and
0x00 otherwise, whatever `x` and `y` are; no other instruction changes it unless it names VF as its destination; an explicit write may
leave any value; an instruction that does not name VF among the registers it reads does the same whatever VF holds, to pc, stack, sp,
status, fault record, memory, every other register, and VF itself where it is written; VF as an operand is legal and never faults; and VF
is 0x00 at reset. -/
def Obligations.FlagRegisterIsWrittenImplicitlyByAddAndSubOnly : Prop :=
  (∀ (x y : RegIdx) (s : State), ∃ t, exec (.addReg x y) s = .next t ∧
    t.getReg 0xF#4 = (if (s.getReg x).toNat + (s.getReg y).toNat > 255 then 0x01#8 else 0x00#8)) ∧
  (∀ (x y : RegIdx) (s : State), ∃ t, exec (.subReg x y) s = .next t ∧
    t.getReg 0xF#4 = (if (s.getReg x).toNat < (s.getReg y).toNat then 0x01#8 else 0x00#8)) ∧
  (∀ (i : Instr) (s t : State), exec i s = .next t → i.op ≠ .addReg → i.op ≠ .subReg → 0xF#4 ∉ regWrites i →
    t.getReg 0xF#4 = s.getReg 0xF#4) ∧
  (∀ (v : Byte) (s : State), ∃ t, exec (.loadImm 0xF#4 v) s = .next t ∧ t.getReg 0xF#4 = v) ∧
  (∀ (i : Instr) (s t : State) (v : Byte), 0xF#4 ∉ regReads i → exec i s = .next t →
    ∃ u, exec i (s.setReg 0xF#4 v) = .next u ∧ u.pc = t.pc ∧ SameStack t u ∧ SameStatus t u ∧ SameMemory t u ∧
      ∀ q, q ∈ regWrites i ∨ q ≠ 0xF#4 → u.getReg q = t.getReg q) ∧
  (∀ (i : Instr) (s : State), 0xF#4 ∈ regReads i ∨ 0xF#4 ∈ regWrites i →
    decodeWord (encode i) = .ok i ∧ ∃ t, exec i s = .next t ∧ SameStatus s t) ∧
  State.reset.getReg 0xF#4 = 0x00#8

/-! ## Reset, the host and runs (10_state.md sections 6 and 7, 70_reset_and_hazards.md) -/

/-- Reset (70_reset_and_hazards.md section 1): from every state, every piece of state has its reset value; the status and the fault record are the
spec's decisions D5 and D6. -/
def Obligations.ResetClearsEveryPieceOfState : Prop :=
  ∀ s : State, (∀ r, (s.transact .reset).getReg r = 0x00#8) ∧ (∀ a, Memory.read (s.transact .reset).mem a = 0x00#8) ∧
    (∀ (j : Nat) (h : j < 16), (s.transact .reset).stack[j] = 0x0000#16) ∧ (s.transact .reset).pc = 0x0000#16 ∧
    (s.transact .reset).sp.val = 0 ∧ (s.transact .reset).status = .idle ∧ (s.transact .reset).faultCause = .noFault ∧
    (s.transact .reset).faultWord = 0x0000#16 ∧ (s.transact .reset).faultAddr = 0x0000#16

/-- Host writes (10_state.md section 6): while the core is not RUNNING they reach the one byte of memory or the one general register, and nothing
else; while it is RUNNING they change nothing (the spec's decision D10). The transactions and their width are its decisions D16 and D21. -/
def Obligations.HostWritesReachOneByteOrRegister : Prop :=
  (∀ (s : State) (a : Addr) (b : Byte), s.status ≠ .running → Memory.wf s.mem = true →
    (∀ a', Memory.read (s.transact (.writeMem a b)).mem a' = if a' = a.toNat then b else Memory.read s.mem a') ∧
    { s.transact (.writeMem a b) with mem := s.mem } = s) ∧
  (∀ (s : State) (i : RegIdx) (b : Byte), s.status ≠ .running →
    (∀ r, (s.transact (.writeReg i b)).getReg r = if r = i then b else s.getReg r) ∧
    { s.transact (.writeReg i b) with regs := s.regs } = s) ∧
  (∀ (s : State) (a : Addr) (i : RegIdx) (b : Byte), s.status = .running →
    s.transact (.writeMem a b) = s ∧ s.transact (.writeReg i b) = s)

/-- Host reads (10_state.md section 6): not offered while RUNNING (the spec's decision D10), else the value of the item, zero-extended, and no
side effect in either case. The zero-extension and the four outputs are of the signal list, the spec's decision D16 (log 21). `status` and
`fault_cause` are read, and shown on the outputs at all times, as the numbers of its decisions D5 and D7 (10_state.md section 4,
60_exceptions.md section 1); the record is its decision D6. -/
def Obligations.HostReadsDeliverTheStateUnchanged : Prop :=
  (∀ (s : State) (w : ReadSelect), s.hostRead w = none ↔ s.status = .running) ∧
  (∀ (s : State) (w : ReadSelect), s.transact (.read w) = s) ∧
  (∀ (s : State) (a : Addr) (i : RegIdx) (j : Nat) (h : j < 16), s.status ≠ .running →
    (∃ v, s.hostRead (.memory a) = some v ∧ v.toNat = (Memory.read s.mem a.toNat).toNat) ∧
    (∃ v, s.hostRead (.register i) = some v ∧ v.toNat = (s.getReg i).toNat) ∧
    s.hostRead (.stackEntry (BitVec.ofNat 4 j)) = some s.stack[j] ∧
    s.hostRead .pc = some s.pc ∧ (∃ v, s.hostRead .sp = some v ∧ v.toNat = s.sp.val) ∧
    (∃ v, s.hostRead .status = some v ∧ v.toNat = s.status.code.toNat) ∧
    (∃ v, s.hostRead .faultCause = some v ∧ v.toNat = s.faultCause.code.toNat) ∧
    s.hostRead .faultWord = some s.faultWord ∧ s.hostRead .faultAddr = some s.faultAddr) ∧
  (∀ s : State, s.statusOutputs = (s.status.code, s.faultCause.code, s.faultWord, s.faultAddr)) ∧
  (Status.idle.code.toNat = 0 ∧ Status.running.code.toNat = 1 ∧ Status.halted.code.toNat = 2 ∧ Status.faulted.code.toNat = 3) ∧
  (FaultCause.noFault.code.toNat = 0 ∧ FaultCause.outOfBoundsFetch.code.toNat = 1 ∧ FaultCause.unknownOpcode.code.toNat = 2 ∧
    FaultCause.stackOverflow.code.toNat = 3 ∧ FaultCause.stackUnderflow.code.toNat = 4)

/-- How `status` moves (10_state.md section 4, 70_reset_and_hazards.md section 3): an event that changes it is a reset to IDLE, a `start` from IDLE or
HALTED to RUNNING, or a step from RUNNING to HALTED or FAULTED. The register and the rule for `start` are the spec's decisions D5 and D9. -/
def Obligations.StatusMovesOnlyAsListed : Prop :=
  ∀ (s : State) (e : Event), (s.after e).status ≠ s.status →
    (e = .host .reset ∧ (s.after e).status = .idle) ∨
    (e = .host .start ∧ (s.status = .idle ∨ s.status = .halted) ∧ (s.after e).status = .running) ∨
    (e = .coreStep ∧ s.status = .running ∧ ((s.after e).status = .halted ∨ (s.after e).status = .faulted))

/-- The faulted state (60_exceptions.md section 2): any history without a reset leaves it FAULTED with the same record and pc, stack and sp as the
fault left them (the spec's decision D9). -/
def Obligations.FaultedIsLeftOnlyByReset : Prop :=
  ∀ (es : List Event) (s : State), s.status = .faulted → Event.host .reset ∉ es →
    SameStatus s (s.afterAll es) ∧ (s.afterAll es).pc = s.pc ∧ SameStack s (s.afterAll es)

/-- `start` (70_reset_and_hazards.md section 3): in IDLE and HALTED it sets RUNNING and changes nothing else; in RUNNING and FAULTED it is ignored (the
spec's decision D9). -/
def Obligations.StartSetsRunningAndNothingElse : Prop :=
  ∀ s : State,
    (s.status = .idle ∨ s.status = .halted →
      (s.transact .start).status = .running ∧ { s.transact .start with status := s.status } = s) ∧
    (s.status = .running ∨ s.status = .faulted → s.transact .start = s)

/-- 20_memory.md sections 3 and 4: in every history from reset, each byte of memory is the one the host wrote there last, or 0x00 where it wrote none
since reset. Writes while RUNNING do not count (the spec's decision D10). -/
def Obligations.MemoryHoldsTheLastAcceptedWrite : Prop :=
  ∀ (es : List Event) (a : Nat),
    Memory.read (State.reset.afterAll es).mem a = lastByteFor a State.reset es 0x00#8

/-- 20_memory.md sections 3 and 4, for one event from every state whose memory is canonical: each byte reads as the accepted host write or the reset
gave it, or as before. A write while RUNNING is not accepted (the spec's decision D10). -/
def Obligations.EventGivesEachByteItsWrite : Prop :=
  ∀ (s : State) (e : Event) (a : Nat), Memory.wf s.mem = true →
    Memory.read (s.after e).mem a = (e.byteFor s a).getD (Memory.read s.mem a)

/-- R58 (derived by the spec): a run does not change memory. -/
def Obligations.RunsLeaveMemoryUnchanged : Prop :=
  ∀ (n : Nat) (s t : State), runSteps n s = some t → t.mem = s.mem

/-- 70_reset_and_hazards.md section 3: a run ends at most once and in one way: two ends of runs from the same state are the same state, so a run
that has halted has not failed, and the core that has stopped stays as it is until the host acts. The statement holds of the zero-step run of
a core that is not RUNNING too, which is the model's choice (log 20). -/
def Obligations.RunEndsAtMostOnce : Prop :=
  ∀ s t u : State, RunHalts s t ∨ RunFails s t → RunHalts s u ∨ RunFails s u →
    t = u ∧ ¬(RunHalts s t ∧ RunFails s t) ∧ step t = .next t

/-- 41_halt_and_control_flow.md section 1 (derived by the spec): a run of an unloaded memory ends after one step, with pc 0x0002 (the spec's decision
D8), and a second `start` resumes behind it (D9). -/
def Obligations.UnloadedMemoryHaltsAtOnce : Prop :=
  ∃ t u, runSteps 1 (State.reset.transact .start) = some t ∧ t.status = .halted ∧ t.pc = 0x0002#16 ∧
    SameRegsBut [] State.reset t ∧ SameMemory State.reset t ∧ SameStack State.reset t ∧
    runSteps 1 (t.transact .start) = some u ∧ u.status = .halted ∧ u.pc = 0x0004#16

/-- The model's own `withFetchWord` (log 3): with canonical memory, the very next step runs the placed instruction. -/
def Obligations.PlacedInstructionRunsNext : Prop :=
  ∀ (s : State) (w : Nat) (i : Instr), Memory.wf s.mem = true → decodeTableWord 16 w = some i →
    step (s.withFetchWord 16 w) = exec i (s.withFetchWord 16 w)
end

