-- ==== Sys2Proof/Laws/State.lean ====
section
/-!
SUPPORT. One lemma per field per update of `State`, so that no proof unfolds a record update, and the register read-after-write law.
-/
namespace Sys2Proof.Machine

/-! `State.setReg`: every field after it. -/

@[simp] theorem setReg_regs (s : State) (i : RegIdx) (v : Byte) : (s.setReg i v).regs = s.regs.set i.toNat v (by omega) := rfl
@[simp] theorem setReg_pc (s : State) (i : RegIdx) (v : Byte) : (s.setReg i v).pc = s.pc := rfl
@[simp] theorem setReg_stack (s : State) (i : RegIdx) (v : Byte) : (s.setReg i v).stack = s.stack := rfl
@[simp] theorem setReg_sp (s : State) (i : RegIdx) (v : Byte) : (s.setReg i v).sp = s.sp := rfl
@[simp] theorem setReg_mem (s : State) (i : RegIdx) (v : Byte) : (s.setReg i v).mem = s.mem := rfl
@[simp] theorem setReg_status (s : State) (i : RegIdx) (v : Byte) : (s.setReg i v).status = s.status := rfl
@[simp] theorem setReg_faultCause (s : State) (i : RegIdx) (v : Byte) : (s.setReg i v).faultCause = s.faultCause := rfl
@[simp] theorem setReg_faultWord (s : State) (i : RegIdx) (v : Byte) : (s.setReg i v).faultWord = s.faultWord := rfl
@[simp] theorem setReg_faultAddr (s : State) (i : RegIdx) (v : Byte) : (s.setReg i v).faultAddr = s.faultAddr := rfl

/-! `State.setPc`: every field after it. -/

@[simp] theorem setPc_regs (s : State) (t : Word) : (s.setPc t).regs = s.regs := rfl
@[simp] theorem setPc_pc (s : State) (t : Word) : (s.setPc t).pc = t := rfl
@[simp] theorem setPc_stack (s : State) (t : Word) : (s.setPc t).stack = s.stack := rfl
@[simp] theorem setPc_sp (s : State) (t : Word) : (s.setPc t).sp = s.sp := rfl
@[simp] theorem setPc_mem (s : State) (t : Word) : (s.setPc t).mem = s.mem := rfl
@[simp] theorem setPc_status (s : State) (t : Word) : (s.setPc t).status = s.status := rfl
@[simp] theorem setPc_faultCause (s : State) (t : Word) : (s.setPc t).faultCause = s.faultCause := rfl
@[simp] theorem setPc_faultWord (s : State) (t : Word) : (s.setPc t).faultWord = s.faultWord := rfl
@[simp] theorem setPc_faultAddr (s : State) (t : Word) : (s.setPc t).faultAddr = s.faultAddr := rfl

/-! `State.advancePc`: every field after it. -/

@[simp] theorem advancePc_regs (s : State) : (s.advancePc).regs = s.regs := rfl
@[simp] theorem advancePc_pc (s : State) : (s.advancePc).pc = s.pc + Config.instrBytes := rfl
@[simp] theorem advancePc_stack (s : State) : (s.advancePc).stack = s.stack := rfl
@[simp] theorem advancePc_sp (s : State) : (s.advancePc).sp = s.sp := rfl
@[simp] theorem advancePc_mem (s : State) : (s.advancePc).mem = s.mem := rfl
@[simp] theorem advancePc_status (s : State) : (s.advancePc).status = s.status := rfl
@[simp] theorem advancePc_faultCause (s : State) : (s.advancePc).faultCause = s.faultCause := rfl
@[simp] theorem advancePc_faultWord (s : State) : (s.advancePc).faultWord = s.faultWord := rfl
@[simp] theorem advancePc_faultAddr (s : State) : (s.advancePc).faultAddr = s.faultAddr := rfl

/-! `State.setStatus`: every field after it. -/

@[simp] theorem setStatus_regs (s : State) (st : Status) : (s.setStatus st).regs = s.regs := rfl
@[simp] theorem setStatus_pc (s : State) (st : Status) : (s.setStatus st).pc = s.pc := rfl
@[simp] theorem setStatus_stack (s : State) (st : Status) : (s.setStatus st).stack = s.stack := rfl
@[simp] theorem setStatus_sp (s : State) (st : Status) : (s.setStatus st).sp = s.sp := rfl
@[simp] theorem setStatus_mem (s : State) (st : Status) : (s.setStatus st).mem = s.mem := rfl
@[simp] theorem setStatus_status (s : State) (st : Status) : (s.setStatus st).status = st := rfl
@[simp] theorem setStatus_faultCause (s : State) (st : Status) : (s.setStatus st).faultCause = s.faultCause := rfl
@[simp] theorem setStatus_faultWord (s : State) (st : Status) : (s.setStatus st).faultWord = s.faultWord := rfl
@[simp] theorem setStatus_faultAddr (s : State) (st : Status) : (s.setStatus st).faultAddr = s.faultAddr := rfl

/-! `State.takeFault`: every field after it. -/

@[simp] theorem takeFault_regs (s : State) (c : FaultCause) (w : Word) : (s.takeFault c w).regs = s.regs := rfl
@[simp] theorem takeFault_pc (s : State) (c : FaultCause) (w : Word) : (s.takeFault c w).pc = s.pc := rfl
@[simp] theorem takeFault_stack (s : State) (c : FaultCause) (w : Word) : (s.takeFault c w).stack = s.stack := rfl
@[simp] theorem takeFault_sp (s : State) (c : FaultCause) (w : Word) : (s.takeFault c w).sp = s.sp := rfl
@[simp] theorem takeFault_mem (s : State) (c : FaultCause) (w : Word) : (s.takeFault c w).mem = s.mem := rfl
@[simp] theorem takeFault_status (s : State) (c : FaultCause) (w : Word) : (s.takeFault c w).status = .faulted := rfl
@[simp] theorem takeFault_faultCause (s : State) (c : FaultCause) (w : Word) : (s.takeFault c w).faultCause = c := rfl
@[simp] theorem takeFault_faultWord (s : State) (c : FaultCause) (w : Word) : (s.takeFault c w).faultWord = w := rfl
@[simp] theorem takeFault_faultAddr (s : State) (c : FaultCause) (w : Word) : (s.takeFault c w).faultAddr = s.pc := rfl

/-! Reading a register after an update. -/

/-- Read after write of the register file: the register written holds the value, every other holds what it held. -/
theorem getReg_setReg (s : State) (i j : RegIdx) (v : Byte) :
    (s.setReg i v).getReg j = if j = i then v else s.getReg j := by
  unfold State.getReg State.setReg
  by_cases h : j = i
  · subst h; simp
  · have hne : i.toNat ≠ j.toNat := fun e => h (BitVec.eq_of_toNat_eq e.symm)
    simp [h, Vector.getElem_set_ne _ _ hne]

@[simp] theorem getReg_setReg_self (s : State) (i : RegIdx) (v : Byte) : (s.setReg i v).getReg i = v := by
  simp [getReg_setReg]

theorem getReg_setReg_ne (s : State) {i j : RegIdx} (v : Byte) (h : j ≠ i) :
    (s.setReg i v).getReg j = s.getReg j := by
  simp [getReg_setReg, h]

@[simp] theorem setPc_getReg (s : State) (t : Word) (r : RegIdx) : (s.setPc t).getReg r = s.getReg r := rfl
@[simp] theorem advancePc_getReg (s : State) (r : RegIdx) : s.advancePc.getReg r = s.getReg r := rfl
@[simp] theorem setStatus_getReg (s : State) (st : Status) (r : RegIdx) : (s.setStatus st).getReg r = s.getReg r := rfl
@[simp] theorem takeFault_getReg (s : State) (c : FaultCause) (w : Word) (r : RegIdx) :
    (s.takeFault c w).getReg r = s.getReg r := rfl

/-- Every register is zero at reset (R43). -/
@[simp] theorem reset_getReg (r : RegIdx) : State.reset.getReg r = 0x00#8 := by
  simp [State.getReg, State.reset]

end Sys2Proof.Machine
end

