-- ==== Sys2Proof/Laws/Ops.lean ====
section
/-!
SUPPORT. One lemma for each shared operation, saying once everything it can do: the stack, the fetch, the operand shapes, the ALU, the step
and the host's transactions.
-/
namespace Sys2Proof.Machine

/-- Where a push answers, the stack had room, and the next free slot holds the value (R30). -/
theorem push_eq_some {s t : State} {v : Word} (h : s.push v = some t) :
    ∃ (hr : s.sp.val < 16), t = { s with stack := s.stack.set s.sp.val v hr, sp := ⟨s.sp.val + 1, by omega⟩ } := by
  unfold State.push at h
  split at h
  · exact ⟨_, (Option.some.inj h).symm⟩
  · simp at h

/-- A push answers none exactly on a full stack (R30). -/
theorem push_eq_none {s : State} {v : Word} : s.push v = none ↔ s.sp.val = 16 := by
  unfold State.push
  split <;> simp <;> omega

/-- Where a pop answers, the stack was not empty, and the entry below `sp` is the value (R30). -/
theorem pop_eq_some {s t : State} {v : Word} (h : s.pop = some (v, t)) :
    ∃ (n : Nat) (hn : n < 16), s.sp.val = n + 1 ∧ v = s.stack[n] ∧ t = { s with sp := ⟨n, by omega⟩ } := by
  unfold State.pop at h
  split at h
  · simp at h
  · next hz =>
    obtain ⟨rfl, rfl⟩ := Prod.mk.inj (Option.some.inj h)
    exact ⟨s.sp.val - 1, by omega, by omega, rfl, rfl⟩

/-- A pop answers none exactly on an empty stack (R30). -/
theorem pop_eq_none {s : State} : s.pop = none ↔ s.sp.val = 0 := by
  unfold State.pop
  split <;> simp_all

/-- The checked fetch, in terms of pc (R55). -/
theorem fetchChecked_eq (s : State) :
    s.fetchChecked = if s.pc.toNat + 1 < 0x1000 then some s.fetchWord else none := by
  unfold State.fetchChecked
  by_cases h : s.pc.toNat + 1 < 0x1000
  · rw [if_pos h, if_pos (by simp [State.fetchInBounds, Config.memSize, h])]
  · rw [if_neg h, if_neg (by simp [State.fetchInBounds, Config.memSize, h])]

/-- A write of a result changes pc and the destination register only. -/
theorem writeResult_getReg (s : State) (x r : RegIdx) (v : Byte) :
    (s.writeResult x v).getReg r = if r = x then v else s.getReg r := by
  simp [State.writeResult, getReg_setReg]

/-- A write of a result and a flag: the flag, written second, wins in VF. -/
theorem writeResultFlag_getReg (s : State) (x r : RegIdx) (v f : Byte) :
    (s.writeResultFlag x v f).getReg r = if r = Config.flagReg then f else if r = x then v else s.getReg r := by
  simp [State.writeResultFlag, getReg_setReg, writeResult_getReg]

/-- A skip writes pc only. -/
theorem skip_eq (s : State) (c : Bool) :
    s.skip c = s.setPc (s.pc + if c then 4#16 else 2#16) := by
  cases c
  · rfl
  · simp [State.skip, State.advancePc, State.setPc, Config.instrBytes, BitVec.add_assoc]

/-- The adder's sum is the 8-bit sum. -/
theorem addOv_fst (p : Byte × Byte) : (addOv p).1 = p.1 + p.2 := by
  apply BitVec.eq_of_toNat_eq
  simp [addOv, BitVec.toNat_add]

/-- The subtractor's difference is the 8-bit difference. -/
theorem subOv_fst (p : Byte × Byte) : (subOv p).1 = p.1 - p.2 := by
  apply BitVec.eq_of_toNat_eq
  simp [subOv, BitVec.toNat_sub, BitVec.toNat_ofInt]
  omega

/-- Everything a step can do: hold, take a fetch fault, take a fault on an illegal word, or run the decoded instruction. -/
theorem step_cases (s : State) :
    (s.status ≠ .running ∧ step s = .next s) ∨
    (s.status = .running ∧ s.fetchChecked = none ∧ step s = .next s.outOfBoundsFetch) ∨
    (∃ w, s.status = .running ∧ s.fetchChecked = some w ∧ decodeWord w = .rejected (.unknownOpcode w) ∧
      step s = .next (s.unknownOpcode w)) ∨
    (∃ w i, s.status = .running ∧ s.fetchChecked = some w ∧ decodeWord w = .ok i ∧ step s = exec i s) := by
  by_cases hr : s.status = .running
  · cases hf : s.fetchChecked with
    | none => exact .inr (.inl ⟨hr, rfl, by simp [step, hr, hf]⟩)
    | some w =>
      cases hd : decodeWord w with
      | ok i => exact .inr (.inr (.inr ⟨w, i, hr, rfl, hd, by simp [step, hr, hf, hd]⟩))
      | rejected why =>
        have hw : why = .unknownOpcode w := by
          simp only [decodeWord] at hd
          split at hd <;> simp_all
        subst hw
        exact .inr (.inr (.inl ⟨w, hr, rfl, hd, by simp [step, hr, hf, hd]⟩))
  · refine .inl ⟨hr, ?_⟩
    cases h : s.status <;> simp_all [step, State.hold]

/-- Everything a transaction can do to the state (R38). -/
theorem transact_cases (s : State) (t : Transaction) :
    (t = .reset ∧ s.transact t = State.reset) ∨
    (∃ a b, t = .writeMem a b ∧ s.status ≠ .running ∧ s.transact t = { s with mem := Memory.write s.mem a.toNat b }) ∨
    (∃ i b, t = .writeReg i b ∧ s.status ≠ .running ∧ s.transact t = s.setReg i b) ∨
    (t = .start ∧ (s.status = .idle ∨ s.status = .halted) ∧ s.transact t = s.setStatus .running) ∨
    (t ≠ .reset ∧ (s.status = .running ∨ (∃ w, t = .read w) ∨ (t = .start ∧ s.status = .faulted)) ∧ s.transact t = s) := by
  cases t with
  | reset => exact .inl ⟨rfl, rfl⟩
  | writeMem a b =>
    by_cases h : s.status = .running
    · exact .inr (.inr (.inr (.inr ⟨by simp, .inl h, by simp [State.transact, State.hostWriteMem, State.isRunning, h]⟩)))
    · exact .inr (.inl ⟨a, b, rfl, h, by simp [State.transact, State.hostWriteMem, State.isRunning, h]⟩)
  | writeReg i b =>
    by_cases h : s.status = .running
    · exact .inr (.inr (.inr (.inr ⟨by simp, .inl h, by simp [State.transact, State.hostWriteReg, State.isRunning, h]⟩)))
    · exact .inr (.inr (.inl ⟨i, b, rfl, h, by simp [State.transact, State.hostWriteReg, State.isRunning, h]⟩))
  | read w => exact .inr (.inr (.inr (.inr ⟨by simp, .inr (.inl ⟨w, rfl⟩), rfl⟩)))
  | start =>
    cases h : s.status
    · exact .inr (.inr (.inr (.inl ⟨rfl, .inl rfl, by simp [State.transact, State.hostStart, h]⟩)))
    · exact .inr (.inr (.inr (.inr ⟨by simp, .inl rfl, by simp [State.transact, State.hostStart, h]⟩)))
    · exact .inr (.inr (.inr (.inl ⟨rfl, .inr rfl, by simp [State.transact, State.hostStart, h]⟩)))
    · exact .inr (.inr (.inr (.inr ⟨by simp, .inr (.inr ⟨rfl, rfl⟩), by simp [State.transact, State.hostStart, h]⟩)))

/-- `MemRead(pc, 2)` delivers the two bytes the fetch combines (R14, R53). -/
theorem fetchWord_readBytes (s : State) :
    ∃ b0 b1, Memory.readBytes s.mem s.pc.toNat 2 = [b0, b1] ∧ s.fetchWord = wordOfBytes b0 b1 :=
  ⟨_, _, rfl, rfl⟩

end Sys2Proof.Machine
end

