-- ==== Sys2Proof/Laws/Exec.lean ====
section
/-!
SUPPORT. What the two meanings that can fault answer, case by case, and one inversion lemma for `exec`: what becomes of memory, status and the
fault record.
-/
namespace Sys2Proof.Machine

/-- RET on a stack that holds `n + 1` addresses. -/
theorem execRet_pop {s : State} {n : Nat} (h : n < 16) (hs : s.sp.val = n + 1) :
    execRet s = .next { s with pc := s.stack[n], sp := ⟨n, by omega⟩ } := by
  unfold execRet
  cases hp : s.advancePc.pop with
  | none =>
    have := (pop_eq_none (s := s.advancePc)).1 hp
    simp only [advancePc_sp] at this
    omega
  | some p =>
    obtain ⟨v, t⟩ := p
    obtain ⟨m, hm, h1, h2, h3⟩ := pop_eq_some hp
    simp only [advancePc_sp] at h1
    obtain rfl : m = n := by omega
    simp only [h2, h3]
    rfl

/-- RET on an empty stack. -/
theorem execRet_underflow {s : State} (hs : s.sp.val = 0) :
    execRet s = .next (s.takeFault .stackUnderflow 0x00EE#16) := by
  have h : s.advancePc.pop = none := (pop_eq_none (s := s.advancePc)).2 hs
  unfold execRet
  rw [h]
  rfl

/-- CALL with room on the stack. -/
theorem execCall_push {s : State} (nnn : Addr) (h : s.sp.val < 16) :
    execCall nnn s = .next { s with
      pc := absoluteTarget nnn, sp := ⟨s.sp.val + 1, by omega⟩, stack := s.stack.set s.sp.val (s.pc + 2#16) h } := by
  have h' : s.advancePc.sp.val < 16 := h
  unfold execCall State.push
  rw [dif_pos h']
  rfl

/-- CALL on a full stack. -/
theorem execCall_overflow {s : State} (nnn : Addr) (h : s.sp.val = 16) :
    execCall nnn s = .next (s.takeFault .stackOverflow (0x2#4 ++ nnn)) := by
  have h' : s.advancePc.push s.advancePc.pc = none := (push_eq_none (s := s.advancePc)).2 h
  unfold execCall
  rw [h']
  rfl

/-- Everything an instruction can do to memory, status and fault record: nothing; HALT; or one of the two stack faults. -/
theorem exec_cases {i : Instr} {s t : State} (h : exec i s = .next t) :
    (i ≠ .halt ∧ t.status = s.status ∧ t.faultCause = s.faultCause ∧ t.faultWord = s.faultWord ∧ t.faultAddr = s.faultAddr ∧
      t.mem = s.mem) ∨
    (i = .halt ∧ t = s.advancePc.setStatus .halted) ∨
    (i = .ret ∧ s.sp.val = 0 ∧ t = s.takeFault .stackUnderflow 0x00EE#16) ∨
    (∃ nnn, i = .call nnn ∧ s.sp.val = 16 ∧ t = s.takeFault .stackOverflow (0x2#4 ++ nnn)) := by
  cases i <;>
    simp only [exec, execHalt, execJmp, execSkipEqImm, execSkipNeqImm, execSkipEqReg, execLoadImm, execAddImm, execCopy,
      execOrReg, execAndReg, execXorReg, execAddReg, execSubReg, Host.Outcome.next.injEq] at h
  case halt => exact .inr (.inl ⟨rfl, h.symm⟩)
  case ret =>
    by_cases hz : s.sp.val = 0
    · rw [execRet_underflow hz] at h
      injection h with h
      exact .inr (.inr (.inl ⟨rfl, hz, h.symm⟩))
    · rw [execRet_pop (n := s.sp.val - 1) (by omega) (by omega)] at h
      injection h with h
      subst h
      exact .inl ⟨by simp, rfl, rfl, rfl, rfl, rfl⟩
  case call nnn =>
    by_cases hz : s.sp.val < 16
    · rw [execCall_push nnn hz] at h
      injection h with h
      subst h
      exact .inl ⟨by simp, rfl, rfl, rfl, rfl, rfl⟩
    · have hf : s.sp.val = 16 := by omega
      rw [execCall_overflow nnn hf] at h
      injection h with h
      exact .inr (.inr (.inr ⟨nnn, rfl, hf, h.symm⟩))
  all_goals subst h
  all_goals
    refine .inl ⟨by simp, ?_, ?_, ?_, ?_, ?_⟩ <;> first | rfl | (rw [skip_eq]; rfl)

end Sys2Proof.Machine
end

