-- ==== Sys2Proof/Laws/Memory.lean ====
section
/-!
SUPPORT. The laws of memory: read after write, and that writes keep the canonical form.
-/
namespace Sys2Proof.Machine

/-- The empty memory, memory at reset, is in canonical form. -/
theorem reset_memory_wf : Memory.wf State.reset.mem = true := rfl

/-- A canonical memory that lists nothing below `lo` lists nothing below any smaller bound. -/
theorem wfFrom_mono {lo lo' : Nat} (h : lo' ≤ lo) : ∀ {m : Memory}, Memory.wfFrom lo m = true → Memory.wfFrom lo' m = true
  | [], _ => rfl
  | (a, b) :: rest, hm => by
    simp only [Memory.wfFrom, Bool.and_eq_true, decide_eq_true_eq] at hm ⊢
    exact ⟨⟨⟨by omega, hm.1.1.2⟩, hm.1.2⟩, hm.2⟩

/-- Below the bound of a canonical memory every address reads as unlisted. -/
theorem read_below {lo a : Nat} (h : a < lo) : ∀ {m : Memory}, Memory.wfFrom lo m = true → Memory.read m a = Memory.unlisted
  | [], _ => rfl
  | (k, b) :: rest, hm => by
    simp only [Memory.wfFrom, Bool.and_eq_true, decide_eq_true_eq] at hm
    have hk : a ≠ k := by omega
    simp only [Memory.read, if_neg hk]
    exact read_below (by omega) hm.2

/-- A write in memory keeps the canonical form. -/
theorem write_wfFrom {lo a : Nat} {b : Byte} (hlo : lo ≤ a) (ha : a < Config.memSize) :
    ∀ {m : Memory}, Memory.wfFrom lo m = true → Memory.wfFrom lo (Memory.write m a b) = true
  | [], _ => by
    by_cases hb : b = Memory.unlisted <;> simp [Memory.write, Memory.wfFrom, hb, hlo, ha]
  | (k, v) :: rest, hm => by
    have hm' := hm
    simp only [Memory.wfFrom, Bool.and_eq_true, decide_eq_true_eq] at hm'
    obtain ⟨⟨⟨h1, h2⟩, h3⟩, h4⟩ := hm'
    unfold Memory.write
    by_cases hk : a < k
    · by_cases hb : b = Memory.unlisted
      · simpa [hk, hb] using hm
      · simp [hk, hb, Memory.wfFrom, hlo, ha, h2, h3, h4, Nat.succ_le_of_lt hk]
    · by_cases he : a = k
      · subst he
        by_cases hb : b = Memory.unlisted
        · simpa [hb] using wfFrom_mono (by omega) h4
        · simp [hb, Memory.wfFrom, h1, h2, h4]
      · simp only [if_neg hk, if_neg he, Memory.wfFrom, Bool.and_eq_true, decide_eq_true_eq]
        exact ⟨⟨⟨h1, h2⟩, h3⟩, write_wfFrom (by omega) ha h4⟩

/-- A write to one of the 4096 addresses keeps memory in canonical form. -/
theorem write_wf {m : Memory} {a : Nat} {b : Byte} (ha : a < Config.memSize) (hm : Memory.wf m = true) :
    Memory.wf (Memory.write m a b) = true :=
  write_wfFrom (Nat.zero_le a) ha hm

/-- A read after a write to another address gives what it gave before. -/
theorem read_write_ne {a a' : Nat} {b : Byte} (h : a' ≠ a) : ∀ (m : Memory),
    Memory.read (Memory.write m a b) a' = Memory.read m a'
  | [] => by
    by_cases hb : b = Memory.unlisted <;> simp [Memory.write, Memory.read, hb, h]
  | (k, v) :: rest => by
    unfold Memory.write
    by_cases hk : a < k
    · by_cases hb : b = Memory.unlisted <;> simp [hk, hb, Memory.read, h]
    · by_cases he : a = k
      · subst he
        by_cases hb : b = Memory.unlisted <;> simp [hb, Memory.read, h]
      · simp only [if_neg hk, if_neg he, Memory.read, read_write_ne h rest]

/-- A read after a write to the same address of a canonical memory gives the byte written. -/
theorem read_write_from {lo a : Nat} {b : Byte} : ∀ {m : Memory}, Memory.wfFrom lo m = true →
    Memory.read (Memory.write m a b) a = b
  | [], _ => by
    by_cases hb : b = Memory.unlisted <;> simp [Memory.write, Memory.read, hb]
  | (k, v) :: rest, hm => by
    simp only [Memory.wfFrom, Bool.and_eq_true, decide_eq_true_eq] at hm
    unfold Memory.write
    by_cases hk : a < k
    · by_cases hb : b = Memory.unlisted
      · have hne : a ≠ k := by omega
        subst hb
        simpa [hk, Memory.read, hne] using read_below (by omega) hm.2
      · simp [hk, hb, Memory.read]
    · by_cases he : a = k
      · subst he
        by_cases hb : b = Memory.unlisted
        · simpa [hb] using read_below (Nat.lt_succ_self a) hm.2
        · simp [hb, Memory.read]
      · simp only [if_neg hk, if_neg he, Memory.read]
        exact read_write_from hm.2

/-- Read after write. -/
theorem read_write {m : Memory} (hm : Memory.wf m = true) (a a' : Nat) (b : Byte) :
    Memory.read (Memory.write m a b) a' = if a' = a then b else Memory.read m a' := by
  by_cases h : a' = a
  · subst h; simpa using read_write_from hm
  · simp [h, read_write_ne h]

end Sys2Proof.Machine
end

