-- ==== Sys2Proof/Laws/PerInstr.lean ====
section
/-!
SUPPORT. Statements made for every instruction, one lemma per constructor: its operands are in the ranges of 30_encoding.md R85, and its listing
line assembles to its word.
-/
namespace Sys2Proof.Laws

/-- The operands of the instruction are in range, and its listing line assembles to the instruction's word (R85). -/
def OperandRanges.Statement (i : Instr) : Prop := i.wellFormed = true ∧ assemble i.listing = some (encode i)

/-- The field types keep every operand in its range. -/
theorem wellFormed_of_types (i : Instr) : i.wellFormed = true := by
  cases i <;> simp [Instr.wellFormed, Instr.listing, Listing.wellFormed, Op.format] <;> omega

/-- An operand read back from its number is the operand. -/
theorem assemble_listing (i : Instr) : assemble i.listing = some (encode i) := by
  have h : i.listing.wellFormed = true := wellFormed_of_types i
  unfold assemble
  rw [if_pos h]
  cases i <;> simp [Instr.listing, Op.build]

theorem OperandRanges.halt : OperandRanges.Statement .halt := ⟨wellFormed_of_types _, assemble_listing _⟩
theorem OperandRanges.ret : OperandRanges.Statement .ret := ⟨wellFormed_of_types _, assemble_listing _⟩
theorem OperandRanges.jmp (n : Addr) : OperandRanges.Statement (.jmp n) := ⟨wellFormed_of_types _, assemble_listing _⟩
theorem OperandRanges.call (n : Addr) : OperandRanges.Statement (.call n) := ⟨wellFormed_of_types _, assemble_listing _⟩
theorem OperandRanges.skipEqImm (x : RegIdx) (k : Byte) : OperandRanges.Statement (.skipEqImm x k) := ⟨wellFormed_of_types _, assemble_listing _⟩
theorem OperandRanges.skipNeqImm (x : RegIdx) (k : Byte) : OperandRanges.Statement (.skipNeqImm x k) := ⟨wellFormed_of_types _, assemble_listing _⟩
theorem OperandRanges.skipEqReg (x y : RegIdx) : OperandRanges.Statement (.skipEqReg x y) := ⟨wellFormed_of_types _, assemble_listing _⟩
theorem OperandRanges.loadImm (x : RegIdx) (k : Byte) : OperandRanges.Statement (.loadImm x k) := ⟨wellFormed_of_types _, assemble_listing _⟩
theorem OperandRanges.addImm (x : RegIdx) (k : Byte) : OperandRanges.Statement (.addImm x k) := ⟨wellFormed_of_types _, assemble_listing _⟩
theorem OperandRanges.copy (x y : RegIdx) : OperandRanges.Statement (.copy x y) := ⟨wellFormed_of_types _, assemble_listing _⟩
theorem OperandRanges.orReg (x y : RegIdx) : OperandRanges.Statement (.orReg x y) := ⟨wellFormed_of_types _, assemble_listing _⟩
theorem OperandRanges.andReg (x y : RegIdx) : OperandRanges.Statement (.andReg x y) := ⟨wellFormed_of_types _, assemble_listing _⟩
theorem OperandRanges.xorReg (x y : RegIdx) : OperandRanges.Statement (.xorReg x y) := ⟨wellFormed_of_types _, assemble_listing _⟩
theorem OperandRanges.addReg (x y : RegIdx) : OperandRanges.Statement (.addReg x y) := ⟨wellFormed_of_types _, assemble_listing _⟩
theorem OperandRanges.subReg (x y : RegIdx) : OperandRanges.Statement (.subReg x y) := ⟨wellFormed_of_types _, assemble_listing _⟩

end Sys2Proof.Laws
end

