-- ==== Sys2Proof/Tests/Slice0.lean ====
section
/-!
SUPPORT. Tests with expected results from spec/ (95_test_vectors.md or a rule's example), and the witnesses of the statements' hypotheses.
-/
namespace Sys2Proof.Tests
open Sys2Proof Sys2Proof.Machine

/-! ## Helpers -/

/-- A running core with the pc and the listed registers set. -/
def at_ (pc : Word) (regs : List (RegIdx × Byte)) : State :=
  regs.foldl (fun s p => s.setReg p.1 p.2) { State.reset with pc := pc, status := .running }

/-- A running core whose stack holds `n` addresses, the topmost given, the others zero. -/
def stacked (pc : Word) (n : Fin 17) (top : Word) : State :=
  { at_ pc [] with sp := n, stack := Vector.ofFn fun j => if j.val + 1 = n.val then top else 0#16 }

/-- Does the outcome have a next state with the property? -/
def nextHas (o : Host.Outcome State Fault Refusal) (p : State → Bool) : Bool :=
  match o with
  | .next t => p t
  | .fault _ | .refused _ => false

/-- The step on a state with the word placed at its pc. -/
def stepOn (s : State) (w : Word) (p : State → Bool) : Bool := nextHas (step (s.placeWord w)) p

/-! ## Well-formedness: what the checks refuse (R85) -/

theorem test_wf_address_range : Listing.wellFormed { op := .jmp, operands := [0x1000] } = false ∧
    Listing.wellFormed { op := .jmp, operands := [0xFFF] } = true := by decide
theorem test_wf_register_range : Listing.wellFormed { op := .loadImm, operands := [16, 0] } = false ∧
    Listing.wellFormed { op := .copy, operands := [16, 0] } = false ∧
    Listing.wellFormed { op := .copy, operands := [0, 16] } = false ∧
    Listing.wellFormed { op := .copy, operands := [15, 15] } = true := by decide
theorem test_wf_immediate_range : Listing.wellFormed { op := .addImm, operands := [0, 0x100] } = false ∧
    Listing.wellFormed { op := .addImm, operands := [15, 0xFF] } = true := by decide
theorem test_wf_operand_count : Listing.wellFormed { op := .halt, operands := [0] } = false ∧
    Listing.wellFormed { op := .call, operands := [] } = false ∧
    Listing.wellFormed { op := .subReg, operands := [0] } = false ∧
    Listing.wellFormed { op := .loadImm, operands := [0, 0, 0] } = false := by decide
theorem test_assemble_refuses_ill_formed : assemble { op := .call, operands := [0x1000] } = none := by decide
/-- R85's own example: `ADD_REG V0, V1` is `0x8014`. -/
theorem test_assemble_add_reg : assemble { op := .addReg, operands := [0, 1] } = some 0x8014#16 := by decide

/-! ## Decoding: a word written out bit by bit from R78 and R80 for every constructor -/

theorem test_decode_halt : decodeWord 0b0000000000000000#16 = .ok .halt := by decide
theorem test_decode_ret : decodeWord 0b0000000011101110#16 = .ok .ret := by decide
theorem test_decode_jmp : decodeWord 0b0001001000110100#16 = .ok (.jmp 0x234#12) := by decide
theorem test_decode_call : decodeWord 0b0010000100000000#16 = .ok (.call 0x100#12) := by decide
theorem test_decode_skipEqImm : decodeWord 0b0011111100000001#16 = .ok (.skipEqImm 0xF#4 0x01#8) := by decide
theorem test_decode_skipNeqImm : decodeWord 0b0100001110100101#16 = .ok (.skipNeqImm 0x3#4 0xA5#8) := by decide
theorem test_decode_skipEqReg : decodeWord 0b0101000100100000#16 = .ok (.skipEqReg 0x1#4 0x2#4) := by decide
theorem test_decode_loadImm : decodeWord 0b0110101000000111#16 = .ok (.loadImm 0xA#4 0x07#8) := by decide
theorem test_decode_addImm : decodeWord 0b0111000011111111#16 = .ok (.addImm 0x0#4 0xFF#8) := by decide
theorem test_decode_copy : decodeWord 0b1000001000010000#16 = .ok (.copy 0x2#4 0x1#4) := by decide
theorem test_decode_orReg : decodeWord 0b1000000000010001#16 = .ok (.orReg 0x0#4 0x1#4) := by decide
theorem test_decode_andReg : decodeWord 0b1000101010110010#16 = .ok (.andReg 0xA#4 0xB#4) := by decide
theorem test_decode_xorReg : decodeWord 0b1000011001110011#16 = .ok (.xorReg 0x6#4 0x7#4) := by decide
theorem test_decode_addReg : decodeWord 0b1000101010110100#16 = .ok (.addReg 0xA#4 0xB#4) := by decide
theorem test_decode_subReg : decodeWord 0b1000001000010101#16 = .ok (.subReg 0x2#4 0x1#4) := by decide
/-- R84: the nearest words beside accepted ones, and the unassigned classes. -/
theorem test_decode_rejects : [0x0001, 0x00E0, 0x00ED, 0x00EF, 0x0100, 0x0EE0, 0x0FFF, 0x5121, 0x512F, 0x8AB6, 0x8AB7, 0x8ABF, 0x9120,
    0xA123, 0xB000, 0xC0FF, 0xD125, 0xE09E, 0xF007, 0xFFFF].all
    (fun w => decide (decodeWord (BitVec.ofNat 16 w) = .rejected (.unknownOpcode (BitVec.ofNat 16 w)))) = true := by decide
theorem test_decode_truncated : decodeBytes [0x60#8] = .rejected .truncated := by decide
/-- R53's byte order: 21 00 is CALL 0x100. -/
theorem test_decode_big_endian : decodeBytes [0x21#8, 0x00#8] = .ok (.call 0x100#12, []) := by decide
theorem test_decodeTableWord : decodeTableWord 16 0x8014 = some (.addReg 0x0#4 0x1#4) ∧ decodeTableWord 16 0x00E0 = none := by decide

/-! ## One step: 95_test_vectors.md sections 2.4 to 2.8 -/

theorem test_halt : stepOn (at_ 0x0FFE#16 []) 0x0000#16
    (fun t => t.pc == 0x1000#16 && t.status == .halted && t.faultCause == .noFault) = true := by decide
theorem test_ret : stepOn (stacked 0x0104#16 1 0x0002#16) 0x00EE#16
    (fun t => t.pc == 0x0002#16 && t.sp == 0 && t.stack[0] == 0x0002#16) = true := by decide
theorem test_ret_full : stepOn (stacked 0x0300#16 16 0x0456#16) 0x00EE#16
    (fun t => t.pc == 0x0456#16 && t.sp == 15) = true := by decide
theorem test_jmp : stepOn (at_ 0x0000#16 []) 0x1FFF#16 (fun t => t.pc == 0x0FFF#16 && t.status == .running) = true := by decide
theorem test_call : stepOn (stacked 0x0200#16 15 0x0111#16) 0x2300#16
    (fun t => t.pc == 0x0300#16 && t.sp == 16 && t.stack[15] == 0x0202#16 && t.stack[14] == 0x0111#16) = true := by decide
theorem test_call_at_top : stepOn (at_ 0x0FFE#16 []) 0x2010#16
    (fun t => t.stack[0] == 0x1000#16 && t.sp == 1 && t.pc == 0x0010#16) = true := by decide
theorem test_skipEqImm_taken : stepOn (at_ 0x0200#16 [(3, 0x2A)]) 0x332A#16 (fun t => t.pc == 0x0204#16) = true := by decide
theorem test_skipEqImm_not_taken : stepOn (at_ 0x0200#16 [(3, 0x2B)]) 0x332A#16 (fun t => t.pc == 0x0202#16) = true := by decide
theorem test_skipNeqImm_taken : stepOn (at_ 0x0010#16 [(0, 0x01)]) 0x4000#16 (fun t => t.pc == 0x0014#16) = true := by decide
theorem test_skipNeqImm_not_taken : stepOn (at_ 0x0010#16 []) 0x4000#16 (fun t => t.pc == 0x0012#16) = true := by decide
theorem test_skipEqReg_taken_at_top : stepOn (at_ 0x0FFE#16 []) 0x5000#16 (fun t => t.pc == 0x1002#16) = true := by decide
theorem test_skipEqReg_not_taken : stepOn (at_ 0x0020#16 [(1, 7), (2, 8)]) 0x5120#16 (fun t => t.pc == 0x0022#16) = true := by decide
theorem test_loadImm_flag_register : stepOn (at_ 0#16 [(0xF, 1)]) 0x6FFF#16
    (fun t => t.getReg 0xF == 0xFF#8 && t.pc == 2#16) = true := by decide
theorem test_addImm_wraps : stepOn (at_ 0#16 [(0, 0x80), (0xF, 1)]) 0x7080#16
    (fun t => t.getReg 0 == 0x00#8 && t.getReg 0xF == 1#8) = true := by decide
theorem test_addImm_flag_register : stepOn (at_ 0#16 [(0xF, 0xFF)]) 0x7F02#16 (fun t => t.getReg 0xF == 0x01#8) = true := by decide
theorem test_copy : stepOn (at_ 0#16 [(0xF, 1)]) 0x83F0#16 (fun t => t.getReg 3 == 1#8 && t.getReg 0xF == 1#8) = true := by decide
theorem test_orReg : stepOn (at_ 0#16 [(0, 0xF0), (1, 0x0F), (0xF, 1)]) 0x8011#16
    (fun t => t.getReg 0 == 0xFF#8 && t.getReg 0xF == 1#8) = true := by decide
theorem test_andReg : stepOn (at_ 0#16 [(0, 0xF3), (1, 0x3C), (0xF, 1)]) 0x8012#16
    (fun t => t.getReg 0 == 0x30#8 && t.getReg 0xF == 1#8) = true := by decide
theorem test_xorReg : stepOn (at_ 0#16 [(0, 0xFF), (1, 0x0F), (0xF, 1)]) 0x8013#16
    (fun t => t.getReg 0 == 0xF0#8 && t.getReg 0xF == 1#8) = true := by decide
/-- R165 (f): the old VF is the second operand. -/
theorem test_addReg_old_flag : stepOn (at_ 0#16 [(1, 0xFF), (0xF, 1)]) 0x81F4#16
    (fun t => t.getReg 1 == 0x00#8 && t.getReg 0xF == 1#8) = true := by decide
/-- R165 (g): the sum 0x10 is lost. -/
theorem test_addReg_to_flag : stepOn (at_ 0#16 [(0xF, 0xF0), (2, 0x20)]) 0x8F24#16
    (fun t => t.getReg 0xF == 1#8 && t.getReg 2 == 0x20#8) = true := by decide
/-- R166's example: VF is 1 on borrow. -/
theorem test_subReg_borrow : stepOn (at_ 0#16 [(0, 3), (1, 5)]) 0x8015#16
    (fun t => t.getReg 0 == 0xFE#8 && t.getReg 0xF == 1#8) = true := by decide
/-- R166 (h): the difference 0x03 is lost. -/
theorem test_subReg_to_flag : stepOn (at_ 0#16 [(0xF, 5), (2, 2)]) 0x8F25#16 (fun t => t.getReg 0xF == 0#8) = true := by decide

/-- 95 section 2.8: the fault record and pc of each of the four faults. -/
theorem test_fault_fetch : nextHas (step (at_ 0x0FFF#16 [])) (fun t =>
    t.statusOutputs == (3#2, 1#3, 0x0000#16, 0x0FFF#16) && t.pc == 0x0FFF#16) = true := by decide
theorem test_fault_opcode : stepOn (at_ 0x0002#16 []) 0x00E0#16 (fun t =>
    t.statusOutputs == (3#2, 2#3, 0x00E0#16, 0x0002#16) && t.pc == 0x0002#16) = true := by decide
theorem test_fault_overflow : stepOn (stacked 0x000E#16 16 0x0010#16) 0x2006#16 (fun t =>
    t.statusOutputs == (3#2, 3#3, 0x2006#16, 0x000E#16) && t.pc == 0x000E#16 && t.sp == 16) = true := by decide
theorem test_fault_underflow : stepOn (at_ 0x0000#16 []) 0x00EE#16 (fun t =>
    t.statusOutputs == (3#2, 4#3, 0x00EE#16, 0x0000#16) && t.pc == 0x0000#16 && t.sp == 0) = true := by decide

/-! ## The host: 95_test_vectors.md section 2.9 -/

theorem test_host_write_then_read : (State.reset.transact (.writeMem 0x123 0xAB)).hostRead (.memory 0x123) = some 0x00AB#16 := by decide
theorem test_host_write_register : (State.reset.transact (.writeReg 0xF 0x77)).getReg 0xF = 0x77#8 := by decide
theorem test_host_write_while_running : (at_ 0#16 []).transact (.writeMem 0x123 0xAB) = at_ 0#16 [] := by decide
theorem test_host_zero_write_keeps_form :
    ((State.reset.transact (.writeMem 0x123 0xAB)).transact (.writeMem 0x123 0x00)).mem = [] := by decide
/-- R39: the select codes. -/
theorem test_selects : readSelected 0 0x123 = some (.memory 0x123) ∧ readSelected 1 0x00F = some (.register 0xF) ∧
    readSelected 2 0x00F = some (.stackEntry 0xF) ∧ readSelected 3 0x002 = some .status ∧ readSelected 3 0x006 = none ∧
    writeSelected 1 0x003 0x7F = some (.writeReg 3 0x7F) ∧ writeSelected 3 0x000 0x00 = none := by decide

/-! ## Witnesses: for each statement with hypotheses, states and operands that meet them, at the boundaries of its clauses -/

/-- The last fetchable address holds LOAD_IMM VA, 0x07 (95 section 2.2). -/
def lastWord : State := (at_ 0x0FFE#16 []).placeWord 0x6A07#16

theorem witness_rows : Op.matchesRow .jmp 0x1000#16 = true ∧ Op.matchesRow .subReg 0x8FF5#16 = true := by decide
theorem witness_recognized : decodeWord 0x8FF5#16 = .ok (.subReg 0xF#4 0xF#4) := by decide
theorem witness_fetch : lastWord.pc.toNat + 1 < 0x1000 ∧ lastWord.pc.toNat + 2 = 0x1000 := by decide
theorem witness_step_runs : lastWord.status = .running ∧ lastWord.pc.toNat + 1 < 0x1000 ∧
    decodeBytes [Memory.read lastWord.mem lastWord.pc.toNat, Memory.read lastWord.mem (lastWord.pc.toNat + 1)]
      = .ok (.loadImm 0xA#4 0x07#8, []) := by decide
theorem witness_out_of_bounds : (at_ 0x0FFF#16 []).status = .running ∧ 0x0FFF ≤ (at_ 0x0FFF#16 []).pc.toNat ∧
    (at_ 0xFFFF#16 []).status = .running ∧ 0x0FFF ≤ (at_ 0xFFFF#16 []).pc.toNat := by decide

/-- The last fetchable address holds the illegal word 0x00E0. -/
def illegalLast : State := (at_ 0x0FFE#16 []).placeWord 0x00E0#16

theorem witness_unknown_opcode : illegalLast.status = .running ∧ illegalLast.pc.toNat + 1 < 0x1000 ∧
    0x00E0#16 = wordOfBytes (Memory.read illegalLast.mem illegalLast.pc.toNat) (Memory.read illegalLast.mem (illegalLast.pc.toNat + 1)) ∧
    decodeWord 0x00E0#16 = .rejected (.unknownOpcode 0x00E0#16) := by decide
theorem witness_stopped : State.reset.status ≠ .running ∧
    (State.reset.setStatus .halted).status ≠ .running ∧ (State.reset.setStatus .faulted).status ≠ .running := by decide

/-- One instruction for each operation; V0 and V1 are zero in the state they run from. -/
def oneOfEach : List Instr :=
  [.halt, .ret, .jmp 0xFFF, .call 0xFFF, .skipEqImm 0 0, .skipEqImm 0 1, .skipNeqImm 0 0, .skipNeqImm 0 1, .skipEqReg 0 1,
   .skipEqReg 0 2, .loadImm 0 1, .addImm 0 1, .copy 0 2, .orReg 0 2, .andReg 0 2, .xorReg 0 2, .addReg 0 2, .subReg 0 2]

theorem witness_pc_mux : oneOfEach.all (fun i =>
    let s := ({ stacked 0x0FFE#16 1 0x0002#16 with regs := (at_ 0 [(2, 9)]).regs }).placeWord (encode i)
    s.status == .running && s.fetchChecked == some (encode i) && nextHas (step s) (fun t => t.status != .faulted)) = true := by decide
theorem witness_precise : (at_ 0x0FFF#16 []).status = .running ∧
    nextHas (step (at_ 0x0FFF#16 [])) (fun t => t.status == .faulted) = true := by decide
theorem witness_stop_halt : ((at_ 0x0FFE#16 []).placeWord 0x0000#16).fetchChecked = some 0x0000#16 := by decide
theorem witness_stop_overflow : ((stacked 0 16 0).placeWord 0x2FFF#16).fetchChecked = some (0x2#4 ++ 0xFFF#12) ∧
    ((stacked 0 16 0).placeWord 0x2FFF#16).sp.val = 16 := by decide
theorem witness_stop_underflow : ((at_ 0 []).placeWord 0x00EE#16).fetchChecked = some 0x00EE#16 ∧
    ((at_ 0 []).placeWord 0x00EE#16).sp.val = 0 := by decide
theorem witness_same_fetched_bytes :
    Memory.read [(0xFFD, 0xFF#8), (0xFFE, 0x6A#8), (0xFFF, 0x07#8)] lastWord.pc.toNat = Memory.read lastWord.mem lastWord.pc.toNat ∧
    Memory.read [(0xFFD, 0xFF#8), (0xFFE, 0x6A#8), (0xFFF, 0x07#8)] (lastWord.pc.toNat + 1) =
      Memory.read lastWord.mem (lastWord.pc.toNat + 1) ∧
    nextHas (step lastWord) (fun t => t.pc == 0x1000#16) = true := by decide

/-- The invariants are met by a running state, the reset state with a program at the top of memory. -/
theorem witness_inv : Inv lastWord := by
  refine ⟨by decide, by decide, by decide, fun j h => ?_, by decide⟩
  have : lastWord.stack = Vector.replicate 16 0#16 := by decide
  simp [this]
theorem witness_inv_step : nextHas (step lastWord) (fun t => t.status == .running) = true := by decide

/-- The record of a core that has taken no fault, and that of one that has: the hypotheses of the record's step and transaction lemmas. -/
theorem witness_record : RecordInv lastWord := by refine ⟨?_, ?_, ?_, ?_, ?_⟩ <;> decide
theorem witness_record_faulted : RecordInv (at_ 0x0FFF#16 []).outOfBoundsFetch ∧
    (at_ 0x0FFF#16 []).outOfBoundsFetch.faultCause = .outOfBoundsFetch :=
  ⟨by refine ⟨?_, ?_, ?_, ?_, ?_⟩ <;> decide, by decide⟩

/-- Histories that end in each kind of state. -/
theorem witness_reachable_fetch : (State.reset.afterAll [.host (.writeMem 0 0x1F), .host (.writeMem 1 0xFF), .host .start, .coreStep,
    .coreStep]).faultCause = .outOfBoundsFetch := by decide
theorem witness_reachable_opcode : (State.reset.afterAll [.host (.writeMem 1 0xE0), .host .start, .coreStep]).faultCause
    = .unknownOpcode := by decide
theorem witness_reachable_underflow : (State.reset.afterAll [.host (.writeMem 1 0xEE), .host .start, .coreStep]).faultCause
    = .stackUnderflow := by decide
theorem witness_reachable_overflow : (State.reset.afterAll ([.host (.writeMem 0 0x20), .host .start] ++
    List.replicate 17 .coreStep)).faultCause = .stackOverflow := by decide

theorem witness_ret : (stacked 0 1 2).sp.val = 0 + 1 ∧ (stacked 0 16 2).sp.val = 15 + 1 := by decide
theorem witness_ret_empty : State.reset.sp.val = 0 := by decide
theorem witness_call : (stacked 0 0 0).sp.val < 16 ∧ (stacked 0 15 2).sp.val < 16 := by decide
theorem witness_call_full : (stacked 0 16 2).sp.val = 16 := by decide
theorem witness_call_then_ret : (stacked 0 15 2).sp.val = 15 ∧
    nextHas (exec (.call 0x123) (stacked 0 15 2)) (fun u => u.sp == 16 && u.stack[15] == 2#16) = true := by decide
theorem witness_nested : State.reset.sp.val = 0 ∧ (List.replicate 16 (0x123#12 : Addr)).length = 16 := by decide
theorem witness_skip_conditions : (at_ 0 []).getReg 0 = 0x00#8 ∧ (at_ 0 []).getReg 0 ≠ 0xFF#8 ∧
    (at_ 0 [(1, 7)]).getReg 0 = (at_ 0 [(1, 7)]).getReg 2 ∧ (at_ 0 [(1, 7)]).getReg 0 ≠ (at_ 0 [(1, 7)]).getReg 1 := by decide
theorem witness_class5 : 0x5001#16 &&& 0xF000#16 = 0x5000#16 ∧ 0x5001#16 &&& 0x000F#16 ≠ 0x0000#16 ∧
    0x9120#16 &&& 0xF000#16 = 0x9000#16 := by decide
theorem witness_destinations : (0x0#4 : RegIdx) ≠ 0xF#4 ∧ (0xE#4 : RegIdx) ≠ 0xF#4 ∧ (0x0#4 : RegIdx) ≠ 0x1#4 ∧ (0x1#4 : RegIdx) ≠ 0xF#4 := by
  decide
theorem witness_exec_answers : oneOfEach.all (fun i => nextHas (exec i (stacked 0 1 2)) (fun _ => true)) = true := by decide
theorem witness_not_read : (0x3#4 : RegIdx) ∉ regReads (.addReg 0 1) ∧ (0x0#4 : RegIdx) ∉ regReads (.loadImm 0 1) ∧
    (0xF#4 : RegIdx) ∉ regReads (.addReg 0 1) := by decide
theorem witness_flag_clauses : Instr.op (.addReg 0 1) = .addReg ∧ Instr.op (.subReg 0 1) = .subReg ∧
    Instr.op (.addImm 0 1) ≠ .addReg ∧ Instr.op (.addImm 0 1) ≠ .subReg ∧ 0xF#4 ∉ regWrites (.addImm 0 1) := by decide
theorem witness_flag_operands : 0xF#4 ∈ regReads (.skipEqImm 0xF 0) ∧ 0xF#4 ∈ regWrites (.copy 0xF 0) ∧
    0xF#4 ∉ regReads (.call 0x123) ∧ 0xF#4 ∉ regReads .ret := by decide
theorem witness_host_writes : State.reset.status ≠ .running ∧ Memory.wf State.reset.mem = true ∧ (at_ 0 []).status = .running := by decide
theorem witness_status_moves : ((at_ 0 []).after (.host .reset)).status ≠ (at_ 0 []).status ∧
    (State.reset.after (.host .start)).status ≠ State.reset.status ∧
    ((at_ 0 []).after .coreStep).status ≠ (at_ 0 []).status := by decide
theorem witness_faulted_history : (State.reset.setStatus .faulted).status = .faulted ∧
    Event.host .reset ∉ [Event.coreStep, .host .start, .host (.writeReg 0 1)] := by decide
theorem witness_start : State.reset.status = .idle ∧ (State.reset.setStatus .halted).status = .halted ∧ (at_ 0 []).status = .running ∧
    (State.reset.setStatus .faulted).status = .faulted := by decide
theorem witness_run : runSteps 1 lastWord = some (lastWord.writeResult 0xA#4 0x07#8) := by decide
/-- Log 20: the zero-step run, and that the first step of a run is taken from a RUNNING core. -/
theorem witness_zero_step_run : runSteps 0 (State.reset.setStatus .halted) = some (State.reset.setStatus .halted) ∧
    runSteps 1 (State.reset.setStatus .halted) = none := by decide
theorem witness_run_halts : RunHalts (at_ 0 []) ((at_ 0 []).advancePc.setStatus .halted) := ⟨1, by decide, rfl⟩
theorem witness_run_fails : RunFails (at_ 0x0FFF#16 []) (at_ 0x0FFF#16 []).outOfBoundsFetch := ⟨1, by decide, rfl⟩
theorem witness_placed : Memory.wf State.reset.mem = true ∧ decodeTableWord 16 0x6A07 = some (.loadImm 0xA#4 0x07#8) ∧
    Memory.wf (at_ 0x0FFF#16 []).mem = true := by decide

end Sys2Proof.Tests
end

/-!
The flag register VF (10_state.md R22): the decoder reads every instruction back from its word, `exec` answers from every state, which
registers it changes, and what a register it does not read can influence.
-/

namespace Sys2Proof

/-! ## The decoder on the encoder's words -/

/-- The views that format A uses (R78). -/
theorem fieldsOf_formatA (c : BitVec 4) (n : Addr) : (fieldsOf (c ++ n)).c = c ∧ (fieldsOf (c ++ n)).nnn = n := by
  have := c.isLt
  have := n.isLt
  constructor <;> apply BitVec.eq_of_toNat_eq <;>
    simp only [fieldsOf_c_toNat, fieldsOf_nnn_toNat, toNat_append_add] <;> omega

/-- The views that format I uses (R78). -/
theorem fieldsOf_formatI (c : BitVec 4) (x : RegIdx) (k : Byte) :
    (fieldsOf (c ++ x ++ k)).c = c ∧ (fieldsOf (c ++ x ++ k)).x = x ∧ (fieldsOf (c ++ x ++ k)).kk = k := by
  have := c.isLt
  have := x.isLt
  have := k.isLt
  refine ⟨?_, ?_, ?_⟩ <;> apply BitVec.eq_of_toNat_eq <;>
    simp only [fieldsOf_c_toNat, fieldsOf_x_toNat, fieldsOf_kk_toNat, toNat_append_add] <;> omega

/-- The views that format R uses (R78). -/
theorem fieldsOf_formatR (c : BitVec 4) (x y : RegIdx) (d : BitVec 4) :
    (fieldsOf (c ++ x ++ y ++ d)).c = c ∧ (fieldsOf (c ++ x ++ y ++ d)).x = x ∧ (fieldsOf (c ++ x ++ y ++ d)).y = y ∧
      (fieldsOf (c ++ x ++ y ++ d)).d = d := by
  have := c.isLt
  have := x.isLt
  have := y.isLt
  have := d.isLt
  refine ⟨?_, ?_, ?_, ?_⟩ <;> apply BitVec.eq_of_toNat_eq <;>
    simp only [fieldsOf_c_toNat, fieldsOf_x_toNat, fieldsOf_y_toNat, fieldsOf_d_toNat, toNat_append_add] <;> omega

/-- The decoder reads every instruction back from its word (R82, R85). -/
theorem decodeWord_encode (i : Instr) : decodeWord (encode i) = .ok i := by
  cases i with
  | halt | ret => decide
  | jmp n | call n => simp [decodeWord, encode, fieldsOf_formatA, dispatchOp, Op.build]
  | skipEqImm x k | skipNeqImm x k | loadImm x k | addImm x k =>
    simp [decodeWord, encode, fieldsOf_formatI, dispatchOp, Op.build]
  | skipEqReg x y | copy x y | orReg x y | andReg x y | xorReg x y | addReg x y | subReg x y =>
    simp [decodeWord, encode, fieldsOf_formatR, dispatchOp, Op.build]

end Sys2Proof

namespace Sys2Proof.Machine

/-! ## Two writes to the register file, and writes before the operand shapes -/

/-- Of two writes to one register the second holds. -/
@[simp] theorem setReg_setReg_self (s : State) (r : RegIdx) (v w : Byte) : (s.setReg r v).setReg r w = s.setReg r w := by
  simp [State.setReg]

/-- Writes to different registers may change places. -/
theorem setReg_setReg_comm (s : State) {r q : RegIdx} (v w : Byte) (h : r ≠ q) :
    (s.setReg r v).setReg q w = (s.setReg q w).setReg r v := by
  have hne : r.toNat ≠ q.toNat := fun e => h (BitVec.eq_of_toNat_eq e)
  simp [State.setReg, Vector.set_comm _ _ hne]

/-- The advance of pc leaves a write to the register file standing. -/
theorem advancePc_setReg (s : State) (r : RegIdx) (v : Byte) : (s.setReg r v).advancePc = s.advancePc.setReg r v := rfl

/-- A skip leaves a write to the register file standing. -/
theorem skip_setReg (s : State) (r : RegIdx) (v : Byte) (c : Bool) : (s.setReg r v).skip c = (s.skip c).setReg r v := by
  cases c <;> rfl

/-- A write of a result covers an earlier write to its destination, and leaves one to another register standing. -/
theorem writeResult_setReg (s : State) (r x : RegIdx) (v w : Byte) :
    (s.setReg r v).writeResult x w = if r = x then s.writeResult x w else (s.writeResult x w).setReg r v := by
  unfold State.writeResult
  rw [advancePc_setReg]
  split
  · next h => rw [h, setReg_setReg_self]
  · next h => exact setReg_setReg_comm _ v w h

/-- A write of a result and a flag covers an earlier write to the destination and to VF. -/
theorem writeResultFlag_setReg (s : State) (r x : RegIdx) (v w f : Byte) :
    (s.setReg r v).writeResultFlag x w f =
      if r = x ∨ r = Config.flagReg then s.writeResultFlag x w f else (s.writeResultFlag x w f).setReg r v := by
  unfold State.writeResultFlag
  by_cases hf : r = Config.flagReg
  · rw [writeResult_setReg, if_pos (Or.inr hf), ← hf]
    split
    · rfl
    · exact setReg_setReg_self _ r v f
  · simp only [writeResult_setReg, hf, or_false]
    split
    · rfl
    · exact setReg_setReg_comm _ v f hf

/-! ## What `exec` answers -/

/-- RET answers from every state, and the register file passes through it. -/
theorem execRet_passes_regs (s : State) :
    ∃ t, execRet s = .next t ∧ t.regs = s.regs ∧ ∀ r v, execRet (s.setReg r v) = .next (t.setReg r v) := by
  by_cases hz : s.sp.val = 0
  · exact ⟨_, execRet_underflow hz, rfl, fun r v => execRet_underflow (s := s.setReg r v) hz⟩
  · have hn : s.sp.val = s.sp.val - 1 + 1 := by omega
    exact ⟨_, execRet_pop (by omega) hn, rfl, fun r v => execRet_pop (s := s.setReg r v) (by omega) hn⟩

/-- CALL answers from every state, and the register file passes through it. -/
theorem execCall_passes_regs (n : Addr) (s : State) :
    ∃ t, execCall n s = .next t ∧ t.regs = s.regs ∧ ∀ r v, execCall n (s.setReg r v) = .next (t.setReg r v) := by
  by_cases hz : s.sp.val < 16
  · exact ⟨_, execCall_push n hz, rfl, fun r v => execCall_push (s := s.setReg r v) n hz⟩
  · have hf : s.sp.val = 16 := by omega
    exact ⟨_, execCall_overflow n hf, rfl, fun r v => execCall_overflow (s := s.setReg r v) n hf⟩

/-- Every instruction has a next state from every state: the stack faults are taken, and no arm refuses. -/
theorem exec_answers (i : Instr) (s : State) : ∃ t, exec i s = .next t := by
  cases i with
  | ret => exact (execRet_passes_regs s).imp fun _ h => h.1
  | call n => exact (execCall_passes_regs n s).imp fun _ h => h.1
  | _ => exact ⟨_, rfl⟩

/-- What `exec` does to the register file: nothing; one result; or the result and the flag of ADD_REG and SUB_REG (R21, R22). -/
theorem exec_regs_cases {i : Instr} {s t : State} (h : exec i s = .next t) :
    (regWrites i = [] ∧ t.regs = s.regs) ∨
    (∃ x w, regWrites i = [x] ∧ t = s.writeResult x w) ∨
    (∃ x w f, regWrites i = [x, Config.flagReg] ∧ t = s.writeResultFlag x w f) := by
  cases i with
  | halt | jmp n => cases h; exact .inl ⟨rfl, rfl⟩
  | ret =>
    obtain ⟨u, hu, hregs, -⟩ := execRet_passes_regs s
    cases hu.symm.trans h
    exact .inl ⟨rfl, hregs⟩
  | call n =>
    obtain ⟨u, hu, hregs, -⟩ := execCall_passes_regs n s
    cases hu.symm.trans h
    exact .inl ⟨rfl, hregs⟩
  | skipEqImm x k | skipNeqImm x k | skipEqReg x y => cases h; exact .inl ⟨rfl, by rw [skip_eq, setPc_regs]⟩
  | loadImm x k | addImm x k | copy x y | orReg x y | andReg x y | xorReg x y =>
    cases h; exact .inr (.inl ⟨x, _, rfl, rfl⟩)
  | addReg x y | subReg x y => cases h; exact .inr (.inr ⟨x, _, _, rfl, rfl⟩)

/-- A register the instruction does not write keeps its value (R21). -/
theorem exec_keeps_unwritten {i : Instr} {s t : State} (h : exec i s = .next t) : SameRegsBut (regWrites i) s t := by
  intro r hr
  obtain ⟨-, hregs⟩ | ⟨x, w, hw, rfl⟩ | ⟨x, w, f, hw, rfl⟩ := exec_regs_cases h
  · simp [State.getReg, hregs]
  · rw [hw, List.mem_singleton] at hr
    simp [writeResult_getReg, hr]
  · rw [hw, List.mem_pair, not_or] at hr
    simp [writeResultFlag_getReg, hr]

/-- An instruction that names a register, to read or to write it, never faults and leaves status and fault record (R21, R22). -/
theorem exec_keeps_status {i : Instr} {s t : State} {r : RegIdx} (hr : r ∈ regReads i ∨ r ∈ regWrites i)
    (h : exec i s = .next t) : SameStatus s t := by
  obtain ⟨-, hst, hc, hw, ha, -⟩ | ⟨rfl, -⟩ | ⟨rfl, -⟩ | ⟨n, rfl, -⟩ := exec_cases h
  · exact ⟨hst, hc, hw, ha⟩
  all_goals simp [regReads, regWrites] at hr

/-! ## A register that is not read has no influence -/

/-- A write to a register the instruction does not read is covered by the instruction's own write to it, or stands after it (R21). -/
theorem exec_setReg_of_not_read {i : Instr} {s t : State} {r : RegIdx} (v : Byte) (hr : r ∉ regReads i)
    (h : exec i s = .next t) :
    exec i (s.setReg r v) = .next (if r ∈ regWrites i then t else t.setReg r v) := by
  have hread : ∀ q ∈ regReads i, (s.setReg r v).getReg q = s.getReg q :=
    fun q hq => getReg_setReg_ne s v (ne_of_mem_of_not_mem hq hr)
  cases i with
  | halt | jmp n => cases h; rfl
  | ret =>
    obtain ⟨u, hu, -, hset⟩ := execRet_passes_regs s
    cases hu.symm.trans h
    exact hset r v
  | call n =>
    obtain ⟨u, hu, -, hset⟩ := execCall_passes_regs n s
    cases hu.symm.trans h
    exact hset r v
  | loadImm x k =>
    cases h
    simp [exec, execLoadImm, aluPass, State.operandsI, regWrites, writeResult_setReg]
  | skipEqImm x k | skipNeqImm x k | skipEqReg x y =>
    cases h
    simp only [regReads, List.forall_mem_cons] at hread
    simp [exec, execSkipEqImm, execSkipNeqImm, execSkipEqReg, State.operandsI, State.operandsR, regWrites, hread, skip_setReg]
  | addImm x k | copy x y | orReg x y | andReg x y | xorReg x y =>
    cases h
    simp only [regReads, List.forall_mem_cons] at hread
    simp [exec, execAddImm, execCopy, execOrReg, execAndReg, execXorReg, aluPass, State.operandsI, State.operandsR,
      regWrites, hread, writeResult_setReg]
  | addReg x y | subReg x y =>
    cases h
    simp only [regReads, List.forall_mem_cons] at hread
    simp [exec, execAddReg, execSubReg, State.applyBinary, State.operandsR, regWrites, hread, writeResultFlag_setReg]

/-! ## The flag register -/

/-- `ApplyBinary` leaves its indicator in VF, whatever the destination is (R23, R171). -/
theorem applyBinary_flag (s : State) (x y : RegIdx) (op : Byte × Byte → Byte × Bool) :
    (s.applyBinary x y op).getReg 0xF#4 = flagByte (op (s.getReg x, s.getReg y)).2 := by
  simp [State.applyBinary, writeResultFlag_getReg, Config.flagReg, State.operandsR]

/-- Settles O46: the flag clauses by `applyBinary_flag`, the frame by the instruction's written registers, and the influence of VF by moving
the write to it past the instruction. -/
theorem flagRegisterIsWrittenImplicitlyByAddAndSubOnly : Obligations.FlagRegisterIsWrittenImplicitlyByAddAndSubOnly := by
  refine ⟨fun x y s => ⟨_, rfl, ?add⟩, fun x y s => ⟨_, rfl, ?sub⟩, fun i s t h _ _ hw => exec_keeps_unwritten h _ hw,
    fun v s => ⟨_, rfl, ?load⟩, fun i s t v hr h => ⟨_, exec_setReg_of_not_read v hr h, ?influence⟩,
    fun i s hr => ⟨decodeWord_encode i, ?completes⟩, reset_getReg _⟩
  case add => simp [applyBinary_flag, addOv, flagByte]
  case sub => simp [applyBinary_flag, subOv, flagByte]
  case load => simp [writeResult_getReg, aluPass, State.operandsI]
  case influence =>
    split
    · exact ⟨rfl, ⟨rfl, rfl⟩, ⟨rfl, rfl, rfl, rfl⟩, fun _ => rfl, fun _ _ => rfl⟩
    · next hw =>
      refine ⟨rfl, ⟨rfl, rfl⟩, ⟨rfl, rfl, rfl, rfl⟩, fun _ => rfl, fun q hq => getReg_setReg_ne t v ?_⟩
      rintro rfl
      exact hq.elim hw (· rfl)
  case completes =>
    obtain ⟨t, h⟩ := exec_answers i s
    exact ⟨t, h, exec_keeps_status hr h⟩

end Sys2Proof.Machine

/-!
The fetched word (20_memory.md R53, 40_step_fetch_decode_dispatch.md R102): the fields of a word put together from two bytes, for every pair of
bytes, and their use on the two bytes at pc.
-/

namespace Sys2Proof.Machine

/-- Big-endian: the first byte is the high one (R53). -/
theorem wordOfBytes_toNat (b0 b1 : Byte) : (wordOfBytes b0 b1).toNat = b0.toNat * 256 + b1.toNat :=
  toNat_append_add b0 b1

/-- The nibbles `c` and `x` of a word are its first byte (R102). -/
theorem fieldsOf_wordOfBytes_cx (b0 b1 : Byte) :
    (fieldsOf (wordOfBytes b0 b1)).c ++ (fieldsOf (wordOfBytes b0 b1)).x = b0 := by
  have := b0.isLt
  have := b1.isLt
  apply BitVec.eq_of_toNat_eq
  rw [toNat_append_add, fieldsOf_c_toNat, fieldsOf_x_toNat, wordOfBytes_toNat]
  omega

/-- The nibbles `y` and `d` of a word are its second byte (R102). -/
theorem fieldsOf_wordOfBytes_yd (b0 b1 : Byte) :
    (fieldsOf (wordOfBytes b0 b1)).y ++ (fieldsOf (wordOfBytes b0 b1)).d = b1 := by
  have := b1.isLt
  apply BitVec.eq_of_toNat_eq
  rw [toNat_append_add, fieldsOf_y_toNat, fieldsOf_d_toNat, wordOfBytes_toNat]
  omega

/-- The immediate `kk` of a word is its second byte (R102). -/
theorem fieldsOf_wordOfBytes_kk (b0 b1 : Byte) : (fieldsOf (wordOfBytes b0 b1)).kk = b1 := by
  have := b1.isLt
  apply BitVec.eq_of_toNat_eq
  rw [fieldsOf_kk_toNat, wordOfBytes_toNat]
  omega

/-- Where both bytes are in memory, the checked fetch answers the word of the two bytes at pc (R55, R102). -/
theorem fetchChecked_in_bounds {s : State} (h : s.pc.toNat + 1 < 0x1000) :
    s.fetchChecked = some (wordOfBytes (Memory.read s.mem s.pc.toNat) (Memory.read s.mem (s.pc.toNat + 1))) :=
  (fetchChecked_eq s).trans (if_pos h)

/-- Settles O9: the fetch answers the word of the two bytes at pc, and the fields of such a word are known for every pair of bytes. -/
theorem fetchedWordIsBigEndian : Obligations.FetchedWordIsBigEndian := fun _ h =>
  ⟨_, fetchChecked_in_bounds h, wordOfBytes_toNat _ _, fieldsOf_wordOfBytes_cx _ _, fieldsOf_wordOfBytes_yd _ _,
    fieldsOf_wordOfBytes_kk _ _⟩

end Sys2Proof.Machine

/-!
The decoder's six fields and the rows of the opcode map (30_encoding.md R76, R80): words are compared nibble by nibble, a row compares the
nibbles its mask selects, and the dispatch mux answers an operation exactly on the nibbles of its row.
-/

namespace Sys2Proof

/-! ## The six fields of a word -/

/-- The address field is the three low nibbles. -/
theorem fieldsOf_nnn_eq_append (w : Word) : (fieldsOf w).nnn = (fieldsOf w).x ++ (fieldsOf w).y ++ (fieldsOf w).d := by
  apply BitVec.eq_of_toNat_eq
  simp only [toNat_append_add, fieldsOf_nnn_toNat, fieldsOf_x_toNat, fieldsOf_y_toNat, fieldsOf_d_toNat]
  omega

/-- The immediate field is the two low nibbles. -/
theorem fieldsOf_kk_eq_append (w : Word) : (fieldsOf w).kk = (fieldsOf w).y ++ (fieldsOf w).d := by
  apply BitVec.eq_of_toNat_eq
  simp only [toNat_append_add, fieldsOf_kk_toNat, fieldsOf_y_toNat, fieldsOf_d_toNat]
  omega

/-- A word is its class nibble and its address field. -/
theorem eq_fieldsOf_c_append_nnn (w : Word) : w = (fieldsOf w).c ++ (fieldsOf w).nnn := by
  have := w.isLt
  apply BitVec.eq_of_toNat_eq
  simp only [toNat_append_add, fieldsOf_c_toNat, fieldsOf_nnn_toNat]
  omega

/-- Settles O1: the numbers of the six fields, and the two overlaps of R76 as concatenations. -/
theorem decoderFieldsAreShiftsAndMasks : Obligations.DecoderFieldsAreShiftsAndMasks := fun w =>
  ⟨fieldsOf_c_toNat w, fieldsOf_x_toNat w, fieldsOf_y_toNat w, fieldsOf_d_toNat w, fieldsOf_nnn_toNat w, fieldsOf_kk_toNat w,
    fieldsOf_nnn_eq_append w, fieldsOf_kk_eq_append w, eq_fieldsOf_c_append_nnn w⟩

/-! ## The rows of the opcode map -/

/-- Two words are equal exactly when their four nibbles are. -/
theorem word_eq_iff_nibbles (v w : Word) : v = w ↔ (fieldsOf v).c = (fieldsOf w).c ∧ (fieldsOf v).x = (fieldsOf w).x ∧
    (fieldsOf v).y = (fieldsOf w).y ∧ (fieldsOf v).d = (fieldsOf w).d := by
  constructor
  · rintro rfl
    exact ⟨rfl, rfl, rfl, rfl⟩
  · rintro ⟨hc, hx, hy, hd⟩
    rw [eq_fieldsOf_c_append_nnn v, eq_fieldsOf_c_append_nnn w, fieldsOf_nnn_eq_append, fieldsOf_nnn_eq_append, hc, hx, hy, hd]

/-- What a row of the opcode map compares (R80): the nibbles its format fixes, with those of the row's match. -/
def Op.NibblesMatch (o : Op) (c x y d : BitVec 4) : Prop :=
  match o.format with
  | .z => c = (fieldsOf o.matchBits).c ∧ x = (fieldsOf o.matchBits).x ∧ y = (fieldsOf o.matchBits).y ∧ d = (fieldsOf o.matchBits).d
  | .a | .i => c = (fieldsOf o.matchBits).c
  | .r => c = (fieldsOf o.matchBits).c ∧ d = (fieldsOf o.matchBits).d

/-- The full mask of a nibble, written as a numeral, selects the nibble. -/
theorem and_fullNibble (n : BitVec 4) : n &&& 15#4 = n := BitVec.and_allOnes

/-- A word matches a row exactly when its nibbles do: the mask acts on each nibble by itself, and selects all of it or nothing. -/
theorem matchesRow_iff_nibblesMatch (o : Op) (w : Word) :
    o.matchesRow w = true ↔ o.NibblesMatch (fieldsOf w).c (fieldsOf w).x (fieldsOf w).y (fieldsOf w).d := by
  rw [Op.matchesRow, beq_iff_eq, word_eq_iff_nibbles]
  cases o <;>
    simp [Op.NibblesMatch, Op.maskBits, Op.format, Op.matchBits, fieldsOf, BitVec.extractLsb'_and, and_fullNibble]

/-- The mux's answer for nibbles that match a row is the row's operation (R81, R105). -/
theorem dispatchOp_of_nibblesMatch {o : Op} {c x y d : BitVec 4} (h : o.NibblesMatch c x y d) :
    dispatchOp c x y d = some o := by
  cases o with
  | halt | ret =>
    obtain ⟨rfl, rfl, rfl, rfl⟩ := h
    rfl
  | jmp | call | skipEqImm | skipNeqImm | loadImm | addImm =>
    obtain rfl := h
    rfl
  | skipEqReg | copy | orReg | andReg | xorReg | addReg | subReg =>
    obtain ⟨rfl, rfl⟩ := h
    rfl

/-- The nibbles on which the mux answers an operation match that operation's row (R81, R105). -/
theorem nibblesMatch_of_dispatchOp {o : Op} {c x y d : BitVec 4} (h : dispatchOp c x y d = some o) :
    o.NibblesMatch c x y d := by
  revert h
  fun_cases dispatchOp c x y d <;> rintro ⟨⟩
  case case1 hc hz | case2 hc _ hz => exact ⟨hc, hz⟩
  case case4 hc | case5 hc | case6 hc | case7 hc | case10 hc | case11 hc => exact hc
  case case8 hc hd | case12 hc hd | case13 hc _ hd | case14 hc _ _ hd | case15 hc _ _ _ hd | case16 hc _ _ _ _ hd |
      case17 hc _ _ _ _ _ hd =>
    exact ⟨hc, hd⟩

/-- A word matches a row exactly when the mux answers the row's operation for its nibbles. -/
theorem matchesRow_iff_dispatchOp (o : Op) (w : Word) :
    o.matchesRow w = true ↔ dispatchOp (fieldsOf w).c (fieldsOf w).x (fieldsOf w).y (fieldsOf w).d = some o :=
  (matchesRow_iff_nibblesMatch o w).trans ⟨dispatchOp_of_nibblesMatch, nibblesMatch_of_dispatchOp⟩

/-- The decoder answers exactly the instruction that the mux's operation builds from the fields (R104 to R106). -/
theorem decodeWord_eq_ok_iff (w : Word) (i : Instr) : decodeWord w = .ok i ↔
    ∃ o : Op, dispatchOp (fieldsOf w).c (fieldsOf w).x (fieldsOf w).y (fieldsOf w).d = some o ∧ o.build (fieldsOf w) = i := by
  unfold decodeWord
  cases h : dispatchOp (fieldsOf w).c (fieldsOf w).x (fieldsOf w).y (fieldsOf w).d <;> simp [h]

/-- Different operations build different instructions. -/
theorem build_inj {o o' : Op} {f : Fields} (h : o.build f = o'.build f) : o = o' := by
  rw [← build_op o f, h, build_op]

/-- Settles O2: both sides of each equivalence say what the dispatch mux answers for the word's nibbles. -/
theorem wordDecodesExactlyByItsOpcodeRow : Obligations.WordDecodesExactlyByItsOpcodeRow := by
  intro w
  simp only [matchesRow_iff_dispatchOp, decodeWord_eq_ok_iff]
  refine ⟨fun o => ⟨fun h => ⟨o, h, rfl⟩, ?_⟩, fun ⟨_, o, h, _⟩ => ⟨o, h⟩, fun ⟨o, h⟩ => ⟨_, o, h, rfl⟩⟩
  rintro ⟨o', h, hbuild⟩
  rwa [← build_inj hbuild]

end Sys2Proof

/-!
The jump (41_halt_and_control_flow.md R123): every row of the opcode map as the words of its operation, and the load of an absolute target
into pc, which leaves all the rest of the state standing.
-/

namespace Sys2Proof.Machine

/-- A row of the opcode map, read by its mask and match, is the words of the row's operation (R80). -/
theorem encodedAs_opcodeRow (o : Op) : EncodedAs o.maskBits o.matchBits o.build := fun w =>
  beq_iff_eq.symm.trans ((wordDecodesExactlyByItsOpcodeRow w).1 o)

/-- A target is zero-extended: as a number it is the address it names. -/
theorem absoluteTarget_toNat (nnn : Addr) : (absoluteTarget nnn).toNat = nnn.toNat :=
  BitVec.toNat_setWidth_of_le (show 12 ≤ 16 by decide)

/-- A write to pc leaves registers, memory, stack, status and fault record standing. -/
theorem onlyPcAndRegs_setPc (s : State) (target : Word) : OnlyPcAndRegs [] s (s.setPc target) :=
  ⟨fun r _ => setPc_getReg s target r, fun _ => rfl, ⟨setPc_sp s target, setPc_stack s target⟩,
    setPc_status s target, setPc_faultCause s target, setPc_faultWord s target, setPc_faultAddr s target⟩

/-- JMP overwrites the advanced pc, so all it does is to load its target (R123). -/
theorem exec_jmp_eq_setPc (nnn : Addr) (s : State) : exec (.jmp nnn) s = .next (s.setPc (absoluteTarget nnn)) := rfl

/-- Settles O26: JMP's words are its opcode row, and JMP is one write of the zero-extended target to pc. -/
theorem jmpLoadsTheAbsoluteTarget : Obligations.JmpLoadsTheAbsoluteTarget :=
  ⟨encodedAs_opcodeRow .jmp, fun nnn s =>
    ⟨_, exec_jmp_eq_setPc nnn s, absoluteTarget_toNat nnn, onlyPcAndRegs_setPc s _⟩⟩

end Sys2Proof.Machine

/-!
The conditional skips (42_skips.md R140 to R143): a skip moves pc by 4 or by 2 and writes nothing else, and the words of class 5 with `d` not 0
and of class 9 are no operation's.
-/

namespace Sys2Proof

/-! ## Rejected words -/

/-- Words that agree under the class mask have the same class. -/
theorem fieldsOf_c_of_classMask {w p : Word} (h : w &&& 0xF000#16 = p) : (fieldsOf w).c = (fieldsOf p).c := by
  subst h
  simp [fieldsOf, BitVec.extractLsb'_and, and_fullNibble]

/-- The low mask selects the nibble `d`: where the masked word is not 0, `d` is not 0. -/
theorem fieldsOf_d_ne_zero_of_lowMask {w : Word} (h : w &&& 0x000F#16 ≠ 0x0000#16) : (fieldsOf w).d ≠ 0x0#4 := by
  intro hd
  refine h ((word_eq_iff_nibbles _ _).2 ?_)
  simpa [fieldsOf, BitVec.extractLsb'_and, and_fullNibble] using hd

/-- Class 5 holds one operation, at `d` = 0 (R81). -/
theorem dispatchOp_class5_of_ne (x y : BitVec 4) {d : BitVec 4} (hd : d ≠ 0x0#4) : dispatchOp 0x5#4 x y d = none :=
  if_neg hd

/-- Class 9 holds no operation (R81). -/
theorem dispatchOp_class9 (x y d : BitVec 4) : dispatchOp 0x9#4 x y d = none := rfl

/-- A word the mux answers no operation for is rejected as an unknown opcode (R84). -/
theorem decodeWord_of_dispatchOp_eq_none {w : Word}
    (h : dispatchOp (fieldsOf w).c (fieldsOf w).x (fieldsOf w).y (fieldsOf w).d = none) :
    decodeWord w = .rejected (.unknownOpcode w) := by
  simp only [decodeWord, h]

/-- A class-5 word with `d` not 0 is illegal (R84). -/
theorem decodeWord_class5_rejected {w : Word} (hc : w &&& 0xF000#16 = 0x5000#16) (hd : w &&& 0x000F#16 ≠ 0x0000#16) :
    decodeWord w = .rejected (.unknownOpcode w) := by
  have hclass : (fieldsOf w).c = 0x5#4 := fieldsOf_c_of_classMask hc
  apply decodeWord_of_dispatchOp_eq_none
  rw [hclass]
  exact dispatchOp_class5_of_ne _ _ (fieldsOf_d_ne_zero_of_lowMask hd)

/-- Every class-9 word is illegal (R84). -/
theorem decodeWord_class9_rejected {w : Word} (hc : w &&& 0xF000#16 = 0x9000#16) :
    decodeWord w = .rejected (.unknownOpcode w) := by
  have hclass : (fieldsOf w).c = 0x9#4 := fieldsOf_c_of_classMask hc
  apply decodeWord_of_dispatchOp_eq_none
  rw [hclass]
  exact dispatchOp_class9 _ _ _

end Sys2Proof

namespace Sys2Proof.Machine

/-! ## What a skip does -/

/-- A taken skip goes past the next word. -/
theorem skip_pc_of_true (s : State) {c : Bool} (h : c = true) : (s.skip c).pc = s.pc + 4#16 := by
  rw [skip_eq, h]
  rfl

/-- A skip that is not taken goes to the next word. -/
theorem skip_pc_of_false (s : State) {c : Bool} (h : c = false) : (s.skip c).pc = s.pc + 2#16 := by
  rw [skip_eq, h]
  rfl

/-- A skip, taken or not, leaves registers, memory, stack, status and fault record standing (R140). -/
theorem onlyPcAndRegs_skip (s : State) (c : Bool) : OnlyPcAndRegs [] s (s.skip c) := by
  rw [skip_eq]
  exact onlyPcAndRegs_setPc s _

/-- SKIP_EQ_IMM is a skip on equality (R141). -/
theorem exec_skipEqImm_eq_skip (x : RegIdx) (kk : Byte) (s : State) :
    exec (.skipEqImm x kk) s = .next (s.skip (s.getReg x == kk)) := rfl

/-- SKIP_NEQ_IMM is a skip on inequality (R142). -/
theorem exec_skipNeqImm_eq_skip (x : RegIdx) (kk : Byte) (s : State) :
    exec (.skipNeqImm x kk) s = .next (s.skip (s.getReg x != kk)) := rfl

/-- SKIP_EQ_REG is a skip on equality (R143). -/
theorem exec_skipEqReg_eq_skip (x y : RegIdx) (s : State) :
    exec (.skipEqReg x y) s = .next (s.skip (s.getReg x == s.getReg y)) := rfl

/-! ## The three instructions -/

/-- Settles O31: SKIP_EQ_IMM's words are its opcode row, and it is a skip on equality. -/
theorem skipEqImmSkipsOnEqualImmediate : Obligations.SkipEqImmSkipsOnEqualImmediate :=
  ⟨encodedAs_opcodeRow .skipEqImm, fun x kk s =>
    ⟨_, exec_skipEqImm_eq_skip x kk s, fun heq => skip_pc_of_true s (beq_iff_eq.2 heq),
      fun hne => skip_pc_of_false s (beq_false_of_ne hne), onlyPcAndRegs_skip s _⟩⟩

/-- Settles O32: SKIP_NEQ_IMM's words are its opcode row, and on the same operands its condition is the negation of SKIP_EQ_IMM's. -/
theorem skipNeqImmSkipsOnDifferentImmediate : Obligations.SkipNeqImmSkipsOnDifferentImmediate :=
  ⟨encodedAs_opcodeRow .skipNeqImm, fun x kk s =>
    ⟨_, _, exec_skipNeqImm_eq_skip x kk s, exec_skipEqImm_eq_skip x kk s,
      fun hne => ⟨skip_pc_of_true s (bne_iff_ne.2 hne), skip_pc_of_false s (beq_false_of_ne hne)⟩,
      fun heq => ⟨skip_pc_of_false s (bne_eq_false_iff_eq.2 heq), skip_pc_of_true s (beq_iff_eq.2 heq)⟩,
      onlyPcAndRegs_skip s _⟩⟩

/-- Settles O33: SKIP_EQ_REG's words are its opcode row, the mux answers no operation for the rejected words, and the instruction is a skip on
equality. -/
theorem skipEqRegSkipsOnEqualRegisters : Obligations.SkipEqRegSkipsOnEqualRegisters :=
  ⟨encodedAs_opcodeRow .skipEqReg, fun _ hc hd => decodeWord_class5_rejected hc hd, fun _ hc => decodeWord_class9_rejected hc,
    fun x y s =>
      ⟨_, exec_skipEqReg_eq_skip x y s, fun heq => skip_pc_of_true s (beq_iff_eq.2 heq),
        fun hne => skip_pc_of_false s (beq_false_of_ne hne), onlyPcAndRegs_skip s _⟩⟩

end Sys2Proof.Machine

/-!
The immediate instructions (43_immediate.md R150, R151): each is one write of a result, which moves pc by 2, sets its destination and leaves
all the rest of the state standing.
-/

namespace Sys2Proof.Machine

/-! ## What the write of a result does -/

/-- The destination holds the result. -/
theorem writeResult_getReg_self (s : State) (x : RegIdx) (v : Byte) : (s.writeResult x v).getReg x = v :=
  (writeResult_getReg s x x v).trans (if_pos rfl)

/-- A register that is not the destination holds what it held: VF too, since no flag is written. -/
theorem writeResult_getReg_ne (s : State) {x r : RegIdx} (v : Byte) (h : r ≠ x) : (s.writeResult x v).getReg r = s.getReg r :=
  (writeResult_getReg s x r v).trans (if_neg h)

/-- The write of a result goes to the next word (R103). -/
theorem writeResult_pc (s : State) (x : RegIdx) (v : Byte) : (s.writeResult x v).pc = s.pc + 2#16 := rfl

/-- The write of a result leaves memory, stack, status and fault record standing, and every register but the destination. -/
theorem onlyPcAndRegs_writeResult (s : State) (x : RegIdx) (v : Byte) : OnlyPcAndRegs [x] s (s.writeResult x v) :=
  ⟨fun _ hr => writeResult_getReg_ne s v (List.ne_of_not_mem_cons hr), fun _ => rfl, ⟨rfl, rfl⟩, rfl, rfl, rfl, rfl⟩

/-! ## The two instructions -/

/-- LOAD_IMM writes its immediate (R150). -/
theorem exec_loadImm_eq_writeResult (x : RegIdx) (kk : Byte) (s : State) :
    exec (.loadImm x kk) s = .next (s.writeResult x kk) := rfl

/-- ADD_IMM writes the sum of the register and the immediate as bytes, and drops the adder's indicator (R151). -/
theorem exec_addImm_eq_writeResult (x : RegIdx) (kk : Byte) (s : State) :
    exec (.addImm x kk) s = .next (s.writeResult x (s.getReg x + kk)) :=
  congrArg (fun r => Host.Outcome.next (s.writeResult x r)) (addOv_fst (s.operandsI x kk))

/-- Settles O34: LOAD_IMM's words are its opcode row, and it is one write of the immediate. -/
theorem loadImmWritesTheImmediate : Obligations.LoadImmWritesTheImmediate :=
  ⟨encodedAs_opcodeRow .loadImm, fun x kk s =>
    ⟨_, exec_loadImm_eq_writeResult x kk s, writeResult_getReg_self s x kk, writeResult_pc s x _,
      onlyPcAndRegs_writeResult s x _⟩⟩

/-- Settles O35: ADD_IMM's words are its opcode row, and it is one write of the byte sum, whose number is the sum modulo 256. -/
theorem addImmWrapsWithoutAFlag : Obligations.AddImmWrapsWithoutAFlag := by
  refine ⟨encodedAs_opcodeRow .addImm, fun x kk s =>
    ⟨_, exec_addImm_eq_writeResult x kk s, ?sum, writeResult_pc s x _, onlyPcAndRegs_writeResult s x _⟩⟩
  case sum => rw [writeResult_getReg_self, BitVec.toNat_add]

end Sys2Proof.Machine

/-!
The register-register ALU instructions (44_alu_register.md R161 to R166): COPY, OR, AND and XOR are one write of a result; ADD_REG and SUB_REG
are `ApplyBinary`, which writes a result and then a flag to VF.
-/

namespace Sys2Proof.Machine

/-! ## The instructions without a flag -/

/-- COPY writes the source register (R161). -/
theorem exec_copy_eq_writeResult (x y : RegIdx) (s : State) :
    exec (.copy x y) s = .next (s.writeResult x (s.getReg y)) := rfl

/-- OR writes the bitwise OR of its registers (R162). -/
theorem exec_orReg_eq_writeResult (x y : RegIdx) (s : State) :
    exec (.orReg x y) s = .next (s.writeResult x (s.getReg x ||| s.getReg y)) := rfl

/-- AND writes the bitwise AND of its registers (R163). -/
theorem exec_andReg_eq_writeResult (x y : RegIdx) (s : State) :
    exec (.andReg x y) s = .next (s.writeResult x (s.getReg x &&& s.getReg y)) := rfl

/-- XOR writes the bitwise exclusive OR of its registers (R164). -/
theorem exec_xorReg_eq_writeResult (x y : RegIdx) (s : State) :
    exec (.xorReg x y) s = .next (s.writeResult x (s.getReg x ^^^ s.getReg y)) := rfl

/-- Settles O36: COPY's words are its opcode row, and it is one write of the source register. -/
theorem copyWritesTheSourceRegister : Obligations.CopyWritesTheSourceRegister :=
  ⟨encodedAs_opcodeRow .copy, fun x y s =>
    ⟨_, exec_copy_eq_writeResult x y s, writeResult_getReg_self s x _, writeResult_pc s x _, onlyPcAndRegs_writeResult s x _⟩⟩

/-- Settles O37: OR's words are its opcode row, and it is one write of the bitwise OR, which is idempotent. -/
theorem orWritesTheBitwiseOr : Obligations.OrWritesTheBitwiseOr := by
  refine ⟨encodedAs_opcodeRow .orReg, fun x y s =>
    ⟨_, exec_orReg_eq_writeResult x y s, fun k => ?bits, ?same, writeResult_pc s x _, onlyPcAndRegs_writeResult s x _⟩⟩
  case bits => rw [writeResult_getReg_self, BitVec.getLsbD_or]
  case same =>
    rintro rfl
    rw [writeResult_getReg_self, BitVec.or_self]

/-- Settles O38: AND's words are its opcode row, and it is one write of the bitwise AND, which is idempotent. -/
theorem andWritesTheBitwiseAnd : Obligations.AndWritesTheBitwiseAnd := by
  refine ⟨encodedAs_opcodeRow .andReg, fun x y s =>
    ⟨_, exec_andReg_eq_writeResult x y s, fun k => ?bits, ?same, writeResult_pc s x _, onlyPcAndRegs_writeResult s x _⟩⟩
  case bits => rw [writeResult_getReg_self, BitVec.getLsbD_and]
  case same =>
    rintro rfl
    rw [writeResult_getReg_self, BitVec.and_self]

/-- Settles O39: XOR's words are its opcode row, and it is one write of the bitwise exclusive OR, which is zero on equal operands. -/
theorem xorWritesTheBitwiseDifference : Obligations.XorWritesTheBitwiseDifference := by
  refine ⟨encodedAs_opcodeRow .xorReg, fun x y s =>
    ⟨_, exec_xorReg_eq_writeResult x y s, fun k => ?bits, ?cleared, writeResult_pc s x _, onlyPcAndRegs_writeResult s x _⟩⟩
  case bits => rw [writeResult_getReg_self, BitVec.getLsbD_xor]
  case cleared =>
    rintro rfl
    rw [writeResult_getReg_self, BitVec.xor_self]

/-! ## What `ApplyBinary` does (R171) -/

/-- A destination other than VF holds the result. -/
theorem applyBinary_getReg_self (s : State) {x : RegIdx} (y : RegIdx) (op : Byte × Byte → Byte × Bool) (hx : x ≠ 0xF#4) :
    (s.applyBinary x y op).getReg x = (op (s.getReg x, s.getReg y)).1 :=
  (writeResultFlag_getReg s x x _ _).trans ((if_neg hx).trans (if_pos rfl))

/-- A register that is neither the destination nor VF holds what it held. -/
theorem applyBinary_getReg_of_notMem (s : State) {x r : RegIdx} (y : RegIdx) (op : Byte × Byte → Byte × Bool)
    (hr : r ∉ [x, 0xF#4]) : (s.applyBinary x y op).getReg r = s.getReg r := by
  obtain ⟨hx, hf⟩ : r ≠ x ∧ r ≠ 0xF#4 := by simpa using hr
  exact (writeResultFlag_getReg s x r _ _).trans ((if_neg hf).trans (if_neg hx))

/-- The write of a result and a flag goes to the next word (R103). -/
theorem applyBinary_pc (s : State) (x y : RegIdx) (op : Byte × Byte → Byte × Bool) :
    (s.applyBinary x y op).pc = s.pc + 2#16 := rfl

/-- `ApplyBinary` leaves memory, stack, status and fault record standing, and every register but the destination and VF. -/
theorem onlyPcAndRegs_applyBinary (s : State) (x y : RegIdx) (op : Byte × Byte → Byte × Bool) :
    OnlyPcAndRegs [x, 0xF#4] s (s.applyBinary x y op) :=
  ⟨fun _ hr => applyBinary_getReg_of_notMem s y op hr, fun _ => rfl, ⟨rfl, rfl⟩, rfl, rfl, rfl, rfl⟩

/-! ## The two instructions with a flag -/

/-- ADD_REG applies the adder (R165). -/
theorem exec_addReg_eq_applyBinary (x y : RegIdx) (s : State) : exec (.addReg x y) s = .next (s.applyBinary x y addOv) := rfl

/-- SUB_REG applies the subtractor (R166). -/
theorem exec_subReg_eq_applyBinary (x y : RegIdx) (s : State) : exec (.subReg x y) s = .next (s.applyBinary x y subOv) := rfl

/-- The adder's flag is the carry (R171). -/
theorem flagByte_addOv (a b : Byte) :
    flagByte (addOv (a, b)).2 = if a.toNat + b.toNat > 255 then 0x01#8 else 0x00#8 := by
  simp only [flagByte, addOv, decide_eq_true_eq]

/-- The subtractor's flag is the borrow (R171). -/
theorem flagByte_subOv (a b : Byte) :
    flagByte (subOv (a, b)).2 = if a.toNat < b.toNat then 0x01#8 else 0x00#8 := by
  simp only [flagByte, subOv, decide_eq_true_eq]

/-- The subtractor's difference is the integer difference modulo 256 (R171). -/
theorem subOv_fst_toNat (a b : Byte) : ((subOv (a, b)).1.toNat : Int) = ((a.toNat : Int) - b.toNat) % 256 := by
  have ha := a.isLt
  have hb := b.isLt
  simp only [subOv_fst, BitVec.toNat_sub]
  omega

/-- Settles O40: ADD_REG's words are its opcode row, and it is `ApplyBinary` of the adder, whose sum is modulo 256 and whose flag is the carry. -/
theorem addRegWritesSumThenCarry : Obligations.AddRegWritesSumThenCarry := by
  refine ⟨encodedAs_opcodeRow .addReg, fun x y s =>
    ⟨_, exec_addReg_eq_applyBinary x y s, fun hx => ?sum, ?carry, applyBinary_pc s x y _, onlyPcAndRegs_applyBinary s x y _⟩⟩
  case sum => rw [applyBinary_getReg_self s y _ hx, addOv_fst, BitVec.toNat_add]
  case carry => rw [applyBinary_flag, flagByte_addOv]

/-- Settles O41: SUB_REG's words are its opcode row, and it is `ApplyBinary` of the subtractor, whose difference is modulo 256 and whose flag is
the borrow. -/
theorem subRegWritesDifferenceThenBorrow : Obligations.SubRegWritesDifferenceThenBorrow := by
  refine ⟨encodedAs_opcodeRow .subReg, fun x y s =>
    ⟨_, exec_subReg_eq_applyBinary x y s, fun hx => ?difference, ?borrow, applyBinary_pc s x y _,
      onlyPcAndRegs_applyBinary s x y _⟩⟩
  case difference => rw [applyBinary_getReg_self s y _ hx, subOv_fst_toNat]
  case borrow => rw [applyBinary_flag, flagByte_subOv]

end Sys2Proof.Machine

/-!
Decoding and encoding as inverses (30_encoding.md sections 1 to 5): a word is put together again from its fields, so the encoder undoes the
decoder; the two bytes of an instruction decode as its word does; the words the mux answers no operation for are the table of illegal words;
and the well-formed listing lines are the lines of the instructions.
-/

namespace Sys2Proof

/-! ## Bytes -/

/-- Two bytes of an instruction's word decode to the instruction, whatever follows them (R53, R75). -/
theorem decodeBytes_of_decodeWord {b0 b1 : Byte} {i : Instr} (h : decodeWord (wordOfBytes b0 b1) = .ok i) (rest : List Byte) :
    decodeBytes (b0 :: b1 :: rest) = .ok (i, rest) := by
  simp only [decodeBytes, h]

/-- Two bytes decode to an instruction only as their word does (R53). -/
theorem decodeWord_of_decodeBytes {b0 b1 : Byte} {i : Instr} {rest rest' : List Byte}
    (h : decodeBytes (b0 :: b1 :: rest) = .ok (i, rest')) : decodeWord (wordOfBytes b0 b1) = .ok i := by
  cases hd : decodeWord (wordOfBytes b0 b1) with
  | ok j =>
    rw [decodeBytes_of_decodeWord hd] at h
    cases h
    rfl
  | rejected why => simp [decodeBytes, hd] at h

/-- The stored bytes of an instruction's word combine to the word, so they decode to the instruction. -/
theorem decodeBytes_encodeBytes (i : Instr) (rest : List Byte) : decodeBytes (encodeBytes i ++ rest) = .ok (i, rest) :=
  decodeBytes_of_decodeWord ((congrArg decodeWord (wordOfBytes_high_low (encode i))).trans (decodeWord_encode i)) rest

/-- Settles O5: the decoder reads an instruction back from its word, and so from the two bytes that combine to that word. -/
theorem decodingAnEncodedInstructionGivesItBack : Obligations.DecodingAnEncodedInstructionGivesItBack := fun i rest =>
  ⟨decodeWord_encode i, decodeBytes_encodeBytes i rest⟩

/-! ## Words -/

/-- Different instructions have different words. -/
theorem encode_inj {i j : Instr} : encode i = encode j ↔ i = j := by
  refine ⟨fun h => ?_, congrArg encode⟩
  have hd : Decoded.ok i = .ok j := by rw [← decodeWord_encode, h, decodeWord_encode]
  exact Decoded.ok.inj hd

/-- A word is its class nibble, its register field and its immediate field. -/
theorem eq_fieldsOf_c_x_append_kk (w : Word) : w = (fieldsOf w).c ++ (fieldsOf w).x ++ (fieldsOf w).kk := by
  have := w.isLt
  apply BitVec.eq_of_toNat_eq
  simp only [toNat_append_add, fieldsOf_c_toNat, fieldsOf_x_toNat, fieldsOf_kk_toNat]
  omega

/-- A word is its four nibbles. -/
theorem eq_fieldsOf_c_x_y_append_d (w : Word) : w = (fieldsOf w).c ++ (fieldsOf w).x ++ (fieldsOf w).y ++ (fieldsOf w).d := by
  have := w.isLt
  apply BitVec.eq_of_toNat_eq
  simp only [toNat_append_add, fieldsOf_c_toNat, fieldsOf_x_toNat, fieldsOf_y_toNat, fieldsOf_d_toNat]
  omega

/-- The instruction built from the fields of a word that matches its row has that word: the row fixes every bit that no operand holds. -/
theorem encode_build_of_nibblesMatch {o : Op} {w : Word}
    (h : o.NibblesMatch (fieldsOf w).c (fieldsOf w).x (fieldsOf w).y (fieldsOf w).d) : encode (o.build (fieldsOf w)) = w := by
  cases o with
  | halt | ret => exact ((word_eq_iff_nibbles _ _).2 h).symm
  | jmp | call =>
    have hc := h.symm
    exact (congrArg (· ++ (fieldsOf w).nnn) hc).trans (eq_fieldsOf_c_append_nnn w).symm
  | skipEqImm | skipNeqImm | loadImm | addImm =>
    have hc := h.symm
    exact (congrArg (· ++ (fieldsOf w).x ++ (fieldsOf w).kk) hc).trans (eq_fieldsOf_c_x_append_kk w).symm
  | skipEqReg | copy | orReg | andReg | xorReg | addReg | subReg =>
    obtain ⟨hc, hd⟩ := h
    exact (congrArg₂ (· ++ (fieldsOf w).x ++ (fieldsOf w).y ++ ·) hc.symm hd.symm).trans (eq_fieldsOf_c_x_y_append_d w).symm

/-- Settles O6: a recognized word's nibbles match the row of its operation. -/
theorem recognizedWordIsItsInstructionsOnlyWord : Obligations.RecognizedWordIsItsInstructionsOnlyWord := by
  intro w i h
  obtain ⟨o, ho, rfl⟩ := (decodeWord_eq_ok_iff w i).1 h
  exact encode_build_of_nibblesMatch (nibblesMatch_of_dispatchOp ho)

/-- Settles O3: a word that matches a row is one the mux answers the row's operation for, and the mux answers one operation. -/
theorem opcodeRowsArePairwiseDisjoint : Obligations.OpcodeRowsArePairwiseDisjoint := fun w o o' h h' =>
  Option.some.inj (((matchesRow_iff_dispatchOp o w).1 h).symm.trans ((matchesRow_iff_dispatchOp o' w).1 h'))

/-- The decoder rejects exactly the words the mux answers no operation for (R84, R105). -/
theorem decodeWord_rejected_iff (w : Word) : decodeWord w = .rejected (.unknownOpcode w) ↔
    dispatchOp (fieldsOf w).c (fieldsOf w).x (fieldsOf w).y (fieldsOf w).d = none := by
  refine ⟨fun h => ?_, decodeWord_of_dispatchOp_eq_none⟩
  by_contra hne
  obtain ⟨o, ho⟩ := Option.ne_none_iff_exists'.1 hne
  cases h.symm.trans ((decodeWord_eq_ok_iff w _).2 ⟨o, ho, rfl⟩)

/-- The nibbles the mux answers no operation for, class by class (R81, R84). -/
theorem dispatchOp_eq_none_iff (c x y d : BitVec 4) : dispatchOp c x y d = none ↔
    (c.toNat = 0 ∧ ¬(x.toNat = 0 ∧ y.toNat = 0 ∧ d.toNat = 0) ∧ ¬(x.toNat = 0 ∧ y.toNat = 14 ∧ d.toNat = 14)) ∨
    (c.toNat = 5 ∧ d.toNat ≠ 0) ∨ (c.toNat = 8 ∧ 6 ≤ d.toNat) ∨ 9 ≤ c.toNat := by
  have := c.isLt
  fun_cases dispatchOp c x y d <;>
    simp only [← BitVec.toNat_inj, BitVec.toNat_ofNat, reduceCtorEq, false_iff, true_iff] at * <;> omega

/-- Settles O4: the words the mux answers no operation for, by their nibbles, are the ranges of the table. -/
theorem illegalWordsAreExactlyTheListed : Obligations.IllegalWordsAreExactlyTheListed := by
  intro w
  have := w.isLt
  rw [decodeWord_rejected_iff, dispatchOp_eq_none_iff, fieldsOf_c_toNat, fieldsOf_x_toNat, fieldsOf_y_toNat, fieldsOf_d_toNat]
  omega

/-- Settles O7: eight of the words are the encoder's, the other three are illegal by their nibbles. -/
theorem sampleWordsDecodeAsListed : Obligations.SampleWordsDecodeAsListed :=
  ⟨decodeWord_encode .halt, decodeWord_encode .ret, decodeWord_encode (.call 0x100#12), decodeWord_encode (.jmp 0xFFF#12),
    decodeWord_encode (.skipEqImm 0xF#4 0x01#8), decodeWord_encode (.skipEqReg 0x1#4 0x2#4),
    decodeWord_encode (.loadImm 0xA#4 0xFF#8), decodeWord_encode (.subReg 0xA#4 0xB#4),
    (decodeWord_rejected_iff _).2 rfl, (decodeWord_rejected_iff _).2 rfl, (decodeWord_rejected_iff _).2 rfl⟩

/-! ## Listing lines -/

/-- A line that assembles is well formed (R85). -/
theorem wellFormed_of_assemble {l : Listing} {w : Word} (h : assemble l = some w) : l.wellFormed = true := by
  by_contra hw
  simp [assemble, hw] at h

/-- The operands of an operation as numbers: the fields its format names (R78). -/
def Op.operandsOf (o : Op) (f : Fields) : List Nat :=
  match o.format with
  | .z => []
  | .a => [f.nnn.toNat]
  | .i => [f.x.toNat, f.kk.toNat]
  | .r => [f.x.toNat, f.y.toNat]

/-- The line of an instruction built from fields lists the fields its format names. -/
theorem listing_build (o : Op) (f : Fields) : (o.build f).listing = { op := o, operands := o.operandsOf f } := by
  cases o <;> rfl

/-- A well-formed line is an instruction's: each number in its range is a field's (R85). -/
theorem exists_listing_of_wellFormed {l : Listing} (h : l.wellFormed = true) : ∃ i : Instr, i.listing = l := by
  suffices hf : ∃ f : Fields, l.op.operandsOf f = l.operands by
    obtain ⟨f, hf⟩ := hf
    exact ⟨l.op.build f, by rw [listing_build, hf]⟩
  unfold Listing.wellFormed at h
  split at h
  next hfmt hops => exact ⟨fieldsOf 0, by simp only [Op.operandsOf, hfmt, hops]⟩
  next n hfmt hops =>
    have hn : n < 2 ^ 12 := of_decide_eq_true h
    exact ⟨{ c := 0, x := 0, y := 0, d := 0, nnn := BitVec.ofNat 12 n, kk := 0 },
      by simp only [Op.operandsOf, hfmt, hops, BitVec.toNat_ofNat, Nat.mod_eq_of_lt hn]⟩
  next x k hfmt hops =>
    obtain ⟨hx, hk⟩ : x < 2 ^ 4 ∧ k < 2 ^ 8 := by simpa using h
    exact ⟨{ c := 0, x := BitVec.ofNat 4 x, y := 0, d := 0, nnn := 0, kk := BitVec.ofNat 8 k },
      by simp only [Op.operandsOf, hfmt, hops, BitVec.toNat_ofNat, Nat.mod_eq_of_lt hx, Nat.mod_eq_of_lt hk]⟩
  next x y hfmt hops =>
    obtain ⟨hx, hy⟩ : x < 2 ^ 4 ∧ y < 2 ^ 4 := by simpa using h
    exact ⟨{ c := 0, x := BitVec.ofNat 4 x, y := BitVec.ofNat 4 y, d := 0, nnn := 0, kk := 0 },
      by simp only [Op.operandsOf, hfmt, hops, BitVec.toNat_ofNat, Nat.mod_eq_of_lt hx, Nat.mod_eq_of_lt hy]⟩
  next => cases h

/-- Settles O8: the well-formed lines are the instructions' lines, each assembles to its instruction's word, and the decoder reads the
instruction back. -/
theorem listingAssemblesExactlyWhenInRange : Obligations.ListingAssemblesExactlyWhenInRange := by
  refine fun l => ⟨⟨fun h => ?assembles, fun ⟨_, h⟩ => wellFormed_of_assemble h⟩, fun w h => ?decodes⟩
  case assembles =>
    obtain ⟨i, rfl⟩ := exists_listing_of_wellFormed h
    exact ⟨_, Laws.assemble_listing i⟩
  case decodes =>
    obtain ⟨i, rfl⟩ := exists_listing_of_wellFormed (wellFormed_of_assemble h)
    cases (Laws.assemble_listing i).symm.trans h
    exact ⟨i, decodeWord_encode i, rfl⟩

end Sys2Proof

/-!
The step (40_step_fetch_decode_dispatch.md; 60_exceptions.md sections 1 and 2): one equation for each way it goes, what a running step can end
in, and what follows for faults, for the ends of a run and for the bytes a step depends on.
-/

namespace Sys2Proof.Machine

/-! ## The checked fetch -/

/-- The fetch fails exactly at 0x0FFF and above (R55, D18). -/
theorem fetchChecked_eq_none_iff (s : State) : s.fetchChecked = none ↔ 0x0FFF ≤ s.pc.toNat := by
  rw [fetchChecked_eq, ite_eq_right_iff]
  simp only [reduceCtorEq, imp_false]
  omega

/-- Where the fetch answers a word, both bytes are in memory (R55). -/
theorem in_bounds_of_fetchChecked {s : State} {w : Word} (h : s.fetchChecked = some w) : s.pc.toNat + 1 < 0x1000 := by
  by_contra hb
  have := (fetchChecked_eq_none_iff s).2 (by omega)
  simp [h] at this

/-! ## One equation for each way a step goes -/

/-- A core that is not RUNNING keeps its state (log 1). -/
theorem step_of_ne_running {s : State} (h : s.status ≠ .running) : step s = .next s := by
  obtain ⟨-, hstep⟩ | ⟨hr, -⟩ | ⟨_, hr, -⟩ | ⟨_, _, hr, -⟩ := step_cases s
  · exact hstep
  all_goals exact absurd hr h

/-- A fetch out of bounds is taken as a fault (R182). -/
theorem step_of_fetchChecked_none {s : State} (hr : s.status = .running) (hf : s.fetchChecked = none) :
    step s = .next (s.takeFault .outOfBoundsFetch 0x0000#16) := by
  simp only [step, hr, hf, State.outOfBoundsFetch]

/-- An illegal word is taken as a fault (R183). -/
theorem step_of_rejected {s : State} {w : Word} {why : Reject} (hr : s.status = .running) (hf : s.fetchChecked = some w)
    (hd : decodeWord w = .rejected why) : step s = .next (s.takeFault .unknownOpcode w) := by
  simp only [step, hr, hf, hd, State.unknownOpcode]

/-- A recognized word is executed (R105, R106). -/
theorem step_of_decoded {s : State} {w : Word} {i : Instr} (hr : s.status = .running) (hf : s.fetchChecked = some w)
    (hd : decodeWord w = .ok i) : step s = exec i s := by
  simp only [step, hr, hf, hd]

/-- The word of an instruction is executed as that instruction. -/
theorem step_of_fetched_instr {s : State} {i : Instr} (hr : s.status = .running) (hf : s.fetchChecked = some (encode i)) :
    step s = exec i s :=
  step_of_decoded hr hf (decodeWord_encode i)

/-- Settles O13: the equation of the step that is not RUNNING. -/
theorem stoppedCoreKeepsItsState : Obligations.StoppedCoreKeepsItsState := fun _ h => step_of_ne_running h

/-- Settles O10: the word of the two fetched bytes decodes as they do. -/
theorem stepRunsTheDecodedInstruction : Obligations.StepRunsTheDecodedInstruction := fun _ _ hr hb hd =>
  step_of_decoded hr (fetchChecked_in_bounds hb) (decodeWord_of_decodeBytes hd)

/-- A step answers a next state from every state (R111; logs 1 and 6). -/
theorem step_answers (s : State) : ∃ t, step s = .next t := by
  obtain ⟨-, h⟩ | ⟨-, -, h⟩ | ⟨w, -, -, -, h⟩ | ⟨w, i, -, -, -, h⟩ := step_cases s
  · exact ⟨_, h⟩
  · exact ⟨_, h⟩
  · exact ⟨_, h⟩
  · obtain ⟨t, ht⟩ := exec_answers i s
    exact ⟨t, h.trans ht⟩

/-- Settles O14: the step answers, and it is a function. -/
theorem everyStepHasANextState : Obligations.EveryStepHasANextState := by
  intro s
  obtain ⟨t, ht⟩ := step_answers s
  exact ⟨t, ht, fun u hu => (Host.Outcome.next.inj (ht.symm.trans hu)).symm⟩

/-! ## Fault entry -/

/-- Fault entry writes the record and the status, and nothing else (R109, R190). -/
theorem faultedFrom_takeFault (cause : FaultCause) (word : Word) (s : State) :
    FaultedFrom cause word s (s.takeFault cause word) :=
  ⟨rfl, rfl, rfl, rfl, rfl, fun _ _ => rfl, fun _ => rfl, rfl, rfl⟩

/-- Settles O11: the fetch answers none, and the step enters its fault. -/
theorem stepTakesOutOfBoundsFetch : Obligations.StepTakesOutOfBoundsFetch := fun s hr hpc =>
  ⟨_, step_of_fetchChecked_none hr ((fetchChecked_eq_none_iff s).2 hpc), faultedFrom_takeFault _ _ s⟩

/-- Settles O12: the fetch answers the word, and the step enters the fault of an illegal word. -/
theorem stepTakesUnknownOpcode : Obligations.StepTakesUnknownOpcode := by
  rintro s w hr hb rfl hd
  exact ⟨_, step_of_rejected hr (fetchChecked_in_bounds hb) hd, faultedFrom_takeFault _ _ s⟩

/-! ## What a running step ends in -/

/-- The ends of a step from a RUNNING state: the four faults of R181, HALT, and an instruction that completes and leaves the core running. -/
inductive RunningStep (s : State) : State → Prop where
  | fetchFault (hf : s.fetchChecked = none) : RunningStep s (s.takeFault .outOfBoundsFetch 0x0000#16)
  | illegal (w : Word) (hf : s.fetchChecked = some w) (hd : decodeWord w = .rejected (.unknownOpcode w)) :
      RunningStep s (s.takeFault .unknownOpcode w)
  | overflow (nnn : Addr) (hf : s.fetchChecked = some (encode (.call nnn))) (hsp : s.sp.val = 16) :
      RunningStep s (s.takeFault .stackOverflow (encode (.call nnn)))
  | underflow (hf : s.fetchChecked = some (encode .ret)) (hsp : s.sp.val = 0) :
      RunningStep s (s.takeFault .stackUnderflow (encode .ret))
  | halt (hf : s.fetchChecked = some (encode .halt)) : RunningStep s (s.advancePc.setStatus .halted)
  | completes {t : State} (i : Instr) (hf : s.fetchChecked = some (encode i)) (hi : i ≠ .halt) (he : exec i s = .next t)
      (hs : SameStatus s t) (hm : t.mem = s.mem) : RunningStep s t

/-- A running step ends in one of these ways. -/
theorem runningStep_of_step {s t : State} (hr : s.status = .running) (h : step s = .next t) : RunningStep s t := by
  obtain ⟨hne, -⟩ | ⟨-, hf, hstep⟩ | ⟨w, -, hf, hd, hstep⟩ | ⟨w, i, -, hf, hd, hstep⟩ := step_cases s
  · exact absurd hr hne
  · cases hstep.symm.trans h
    exact .fetchFault hf
  · cases hstep.symm.trans h
    exact .illegal w hf hd
  · obtain rfl := recognizedWordIsItsInstructionsOnlyWord w i hd
    have he : exec i s = .next t := hstep.symm.trans h
    obtain ⟨hi, hst, hc, hw, ha, hm⟩ | ⟨rfl, rfl⟩ | ⟨rfl, hsp, rfl⟩ | ⟨nnn, rfl, hsp, rfl⟩ := exec_cases he
    · exact .completes i hf hi he ⟨hst, hc, hw, ha⟩ hm
    · exact .halt hf
    · exact .underflow hf hsp
    · exact .overflow nnn hf hsp

/-- Settles O16: a running step that ends FAULTED is the entry of one of the four faults. -/
theorem faultsArePrecise : Obligations.FaultsArePrecise := by
  intro s t hr h hfaulted
  cases runningStep_of_step hr h with
  | fetchFault | illegal | overflow | underflow => exact ⟨faultedFrom_takeFault _ _ s, by simp⟩
  | halt => cases hfaulted
  | completes i _ _ _ hs => cases hr.symm.trans (hs.1.symm.trans hfaulted)

/-- What RET does: pop, or fault on an empty stack. -/
theorem exec_ret_cases {s t : State} (h : exec .ret s = .next t) :
    (s.sp.val = 0 ∧ t = s.takeFault .stackUnderflow 0x00EE#16) ∨
    ∃ (n : Nat) (hn : n < 16), s.sp.val = n + 1 ∧ t = { s with pc := s.stack[n], sp := ⟨n, by omega⟩ } := by
  by_cases hz : s.sp.val = 0
  · exact .inl ⟨hz, (Host.Outcome.next.inj ((execRet_underflow hz).symm.trans h)).symm⟩
  · have hsp : s.sp.val = s.sp.val - 1 + 1 := by omega
    have hn : s.sp.val - 1 < 16 := by omega
    exact .inr ⟨_, hn, hsp, (Host.Outcome.next.inj ((execRet_pop hn hsp).symm.trans h)).symm⟩

/-- What CALL does: push and jump, or fault on a full stack. -/
theorem exec_call_cases {nnn : Addr} {s t : State} (h : exec (.call nnn) s = .next t) :
    (s.sp.val = 16 ∧ t = s.takeFault .stackOverflow (0x2#4 ++ nnn)) ∨
    ∃ hsp : s.sp.val < 16, t = { s with
      pc := absoluteTarget nnn, sp := ⟨s.sp.val + 1, by omega⟩, stack := s.stack.set s.sp.val (s.pc + 2#16) hsp } := by
  by_cases hsp : s.sp.val < 16
  · exact .inr ⟨hsp, (Host.Outcome.next.inj ((execCall_push nnn hsp).symm.trans h)).symm⟩
  · have hfull : s.sp.val = 16 := by omega
    exact .inl ⟨hfull, (Host.Outcome.next.inj ((execCall_overflow nnn hfull).symm.trans h)).symm⟩

/-- CALL on a full stack does not complete. -/
theorem not_sameStatus_of_exec_call_full {s t : State} {nnn : Addr} (hr : s.status = .running) (hsp : s.sp.val = 16)
    (h : exec (.call nnn) s = .next t) : ¬ SameStatus s t := by
  rintro ⟨hst, -⟩
  cases (execCall_overflow nnn hsp).symm.trans h
  simp [hr] at hst

/-- RET on an empty stack does not complete. -/
theorem not_sameStatus_of_exec_ret_empty {s t : State} (hr : s.status = .running) (hsp : s.sp.val = 0)
    (h : exec .ret s = .next t) : ¬ SameStatus s t := by
  rintro ⟨hst, -⟩
  cases (execRet_underflow hsp).symm.trans h
  simp [hr] at hst

/-- An illegal word is no instruction's. -/
theorem encode_ne_of_rejected {w : Word} {why : Reject} (h : decodeWord w = .rejected why) (i : Instr) : encode i ≠ w := by
  rintro rfl
  cases (decodeWord_encode i).symm.trans h

/-- Settles O17: each way a running step ends is told apart from the others by its fetched word and the stack pointer, and has its own status
and cause. -/
theorem runningCoreStopsOnlyOnHaltOrAFault : Obligations.RunningCoreStopsOnlyOnHaltOrAFault := by
  intro s t hr h
  change (t.status = .halted ↔ s.fetchChecked = some (encode .halt)) ∧ _ ∧ _ ∧
    (t.status = .faulted ∧ t.faultCause = .stackOverflow ↔
      ∃ nnn : Addr, s.fetchChecked = some (encode (.call nnn)) ∧ s.sp.val = 16) ∧
    (t.status = .faulted ∧ t.faultCause = .stackUnderflow ↔ s.fetchChecked = some (encode .ret) ∧ s.sp.val = 0) ∧ _
  rw [← fetchChecked_eq_none_iff]
  cases runningStep_of_step hr h with
  | fetchFault hf => simp [hf]
  | illegal w hf hd =>
    have hne : ∀ i, w ≠ encode i := fun i => (encode_ne_of_rejected hd i).symm
    simp [hf, hd, hne]
  | overflow nnn hf hsp => simp [hf, hsp, encode_inj, decodeWord_encode]
  | underflow hf hsp => simp [hf, hsp, encode_inj, decodeWord_encode]
  | halt hf => simp [hf, encode_inj, decodeWord_encode]
  | completes i hf hi he hs =>
    have hst : t.status = .running := hs.1.trans hr
    have hcall : ∀ nnn, i = .call nnn → s.sp.val ≠ 16 := by
      rintro nnn rfl hsp
      exact not_sameStatus_of_exec_call_full hr hsp he hs
    have hret : i = .ret → s.sp.val ≠ 0 := by
      rintro rfl hsp
      exact not_sameStatus_of_exec_ret_empty hr hsp he hs
    simpa [hf, hst, hi, encode_inj, decodeWord_encode] using And.intro hcall hret

/-! ## The bytes a step depends on -/

/-- The fetch reads memory at pc and pc + 1 only. -/
theorem fetchChecked_replace_mem {s : State} {m : Memory} (h0 : Memory.read m s.pc.toNat = Memory.read s.mem s.pc.toNat)
    (h1 : Memory.read m (s.pc.toNat + 1) = Memory.read s.mem (s.pc.toNat + 1)) :
    ({ s with mem := m } : State).fetchChecked = s.fetchChecked := by
  simp only [fetchChecked_eq, State.fetchWord, h0, h1]

/-- A skip leaves a replaced memory in place. -/
theorem skip_replace_mem (s : State) (m : Memory) (c : Bool) :
    ({ s with mem := m } : State).skip c = { s.skip c with mem := m } := by
  cases c <;> rfl

/-- No instruction looks at memory (20_memory.md section 3). -/
theorem exec_replace_mem {i : Instr} {s t : State} (m : Memory) (h : exec i s = .next t) :
    exec i { s with mem := m } = .next { t with mem := m } := by
  cases i with
  | ret =>
    obtain ⟨hsp, rfl⟩ | ⟨n, hn, hsp, rfl⟩ := exec_ret_cases h
    · exact execRet_underflow (s := { s with mem := m }) hsp
    · exact execRet_pop (s := { s with mem := m }) hn hsp
  | call nnn =>
    obtain ⟨hsp, rfl⟩ | ⟨hsp, rfl⟩ := exec_call_cases h
    · exact execCall_overflow (s := { s with mem := m }) nnn hsp
    · exact execCall_push (s := { s with mem := m }) nnn hsp
  | skipEqImm x k | skipNeqImm x k | skipEqReg x y =>
    cases h
    exact congrArg Host.Outcome.next (skip_replace_mem s m _)
  | halt | jmp n | loadImm x k | addImm x k | copy x y | orReg x y | andReg x y | xorReg x y | addReg x y | subReg x y =>
    cases h
    rfl

/-- Settles O18: the fetched word is the same, so the step goes the same way, and no way it goes looks at memory again. -/
theorem stepDependsOnlyOnTheFetchedBytes : Obligations.StepDependsOnlyOnTheFetchedBytes := by
  intro s t m h0 h1 h
  have hfetch := fetchChecked_replace_mem h0 h1
  obtain ⟨hne, hstep⟩ | ⟨hr, hf, hstep⟩ | ⟨w, hr, hf, hd, hstep⟩ | ⟨w, i, hr, hf, hd, hstep⟩ := step_cases s
  · cases hstep.symm.trans h
    exact step_of_ne_running hne
  · cases hstep.symm.trans h
    exact step_of_fetchChecked_none hr (hfetch.trans hf)
  · cases hstep.symm.trans h
    exact step_of_rejected hr (hfetch.trans hf) hd
  · have hexec : step { s with mem := m } = exec i { s with mem := m } := step_of_decoded hr (hfetch.trans hf) hd
    exact hexec.trans (exec_replace_mem m (hstep.symm.trans h))

end Sys2Proof.Machine

/-!
HALT, CALL and RET (41_halt_and_control_flow.md), the program-counter mux (10_state.md section 2), and the state each instruction may write and
the registers it may read (10_state.md section 1).
-/

namespace Sys2Proof.Machine

/-! ## HALT, RET and CALL -/

/-- Settles O23: HALT's words are its opcode row, and it advances pc and sets the status. -/
theorem haltStopsTheRunAndAdvances : Obligations.HaltStopsTheRunAndAdvances :=
  ⟨encodedAs_opcodeRow .halt, fun _ =>
    ⟨_, rfl, rfl, rfl, fun _ _ => rfl, fun _ => rfl, ⟨rfl, rfl⟩, rfl, rfl, rfl⟩⟩

/-- Settles O24: RET's words are its opcode row, and on a stack that is not empty it pops. -/
theorem retPopsTheReturnAddress : Obligations.RetPopsTheReturnAddress :=
  ⟨encodedAs_opcodeRow .ret, fun _ _ hn hsp =>
    ⟨_, execRet_pop hn hsp, rfl, rfl, rfl, fun _ _ => rfl, fun _ => rfl, rfl, rfl, rfl, rfl⟩⟩

/-- Settles O25: RET on an empty stack enters its fault. -/
theorem retOnAnEmptyStackUnderflows : Obligations.RetOnAnEmptyStackUnderflows := fun s hsp =>
  ⟨_, execRet_underflow hsp, faultedFrom_takeFault _ _ s⟩

/-- Settles O27: CALL's words are its opcode row, and on a stack with room it pushes the address of the next word. -/
theorem callPushesTheReturnAddress : Obligations.CallPushesTheReturnAddress := by
  refine ⟨encodedAs_opcodeRow .call, fun nnn s hsp =>
    ⟨_, execCall_push nnn hsp, absoluteTarget_toNat nnn, rfl, fun j hj => ?entries, fun _ _ => rfl, fun _ => rfl, rfl, rfl, rfl, rfl⟩⟩
  case entries => simp only [Vector.getElem_set, eq_comm]

/-- Settles O28: CALL on a full stack enters its fault. -/
theorem callOnAFullStackOverflows : Obligations.CallOnAFullStackOverflows := fun nnn s hsp =>
  ⟨_, execCall_overflow nnn hsp, faultedFrom_takeFault _ _ s⟩

/-- Settles O29: the CALL leaves A + 2 in the entry that the RET pops. -/
theorem retAfterCallReturnsBehindTheCall : Obligations.RetAfterCallReturnsBehindTheCall := by
  intro nnn s u v n hn hsp hcall hvsp hentry
  obtain ⟨u', hu', -, husp, hstack, -⟩ := callPushesTheReturnAddress.2 nnn s (by omega)
  cases hu'.symm.trans hcall
  have hv : v.sp.val = n + 1 := by rw [hvsp, husp, hsp]
  obtain ⟨t, ht, hpc, htsp, -⟩ := retPopsTheReturnAddress.2 v n hn hv
  refine ⟨t, ht, ?pc, Fin.ext (htsp.trans hsp.symm)⟩
  case pc => rw [hpc, hentry, hstack n hn, if_pos hsp.symm]

/-- CALLs for which the stack has room all complete, whatever their targets, each with one address more on the stack. -/
theorem execAll_calls (targets : List Addr) (s : State) (h : s.sp.val + targets.length ≤ 16) :
    ∃ t, execAll (targets.map .call) s = .next t ∧ t.sp.val = s.sp.val + targets.length ∧ SameStatus s t := by
  induction targets generalizing s with
  | nil => exact ⟨s, rfl, rfl, rfl, rfl, rfl, rfl⟩
  | cons nnn targets ih =>
    rw [List.length_cons] at h
    obtain ⟨u, hu, -, husp, -, -, -, hust, huc, huw, hua⟩ := callPushesTheReturnAddress.2 nnn s (by omega)
    obtain ⟨t, ht, htsp, htst, htc, htw, hta⟩ := ih u (by omega)
    refine ⟨t, ?runs, ?depth, htst.trans hust, htc.trans huc, htw.trans huw, hta.trans hua⟩
    case runs => simpa only [List.map_cons, execAll, hu] using ht
    case depth =>
      rw [List.length_cons]
      omega

/-- Settles O30: sixteen CALLs fill an empty stack, and a CALL on a full stack overflows. -/
theorem sixteenNestedCallsFitAndOneMoreOverflows : Obligations.SixteenNestedCallsFitAndOneMoreOverflows := by
  intro targets nnn s hsp hlen
  obtain ⟨t, ht, htsp, hst⟩ := execAll_calls targets s (by omega)
  have hfull : t.sp.val = 16 := by omega
  obtain ⟨u, hu, hfault⟩ := callOnAFullStackOverflows nnn t hfull
  exact ⟨t, u, ht, hfull, hst, hu, hfault⟩

/-! ## The program-counter mux -/

/-- The advance of pc does not wrap where the fetch was in bounds (R26). -/
theorem pc_add_toNat {s : State} (h : s.pc.toNat + 1 < 0x1000) {n : Nat} (hn : n ≤ 4) :
    (s.pc + BitVec.ofNat 16 n).toNat = s.pc.toNat + n := by
  rw [BitVec.toNat_add, BitVec.toNat_ofNat]
  omega

/-- A skip goes 4 or 2 ahead, by its condition (R140). -/
theorem skip_pc_toNat {s : State} (h : s.pc.toNat + 1 < 0x1000) (c : Bool) :
    (s.skip c).pc.toNat = s.pc.toNat + if c then 4 else 2 := by
  cases c
  · exact (congrArg BitVec.toNat (skip_pc_of_false s rfl)).trans (pc_add_toNat h (n := 2) (by omega))
  · exact (congrArg BitVec.toNat (skip_pc_of_true s rfl)).trans (pc_add_toNat h (n := 4) (by omega))

/-- Settles O15: the step executes the fetched instruction; a CALL or RET that faults is excluded, and every other operation has its one
way to go on. -/
theorem programCounterMuxSelectsByOperation : Obligations.ProgramCounterMuxSelectsByOperation := by
  intro s t i hr hf h hok
  have hb := in_bounds_of_fetchChecked hf
  have he : exec i s = .next t := (step_of_fetched_instr hr hf).symm.trans h
  cases i with
  | jmp nnn =>
    cases he
    exact absoluteTarget_toNat nnn
  | call nnn =>
    obtain ⟨-, rfl⟩ | ⟨-, rfl⟩ := exec_call_cases he
    · exact absurd rfl hok
    · exact absoluteTarget_toNat nnn
  | ret =>
    obtain ⟨-, rfl⟩ | ⟨n, hn, hsp, rfl⟩ := exec_ret_cases he
    · exact absurd rfl hok
    · exact ⟨n, hn, hsp, rfl⟩
  | skipEqImm x kk =>
    cases (exec_skipEqImm_eq_skip x kk s).symm.trans he
    simpa using skip_pc_toNat hb (s.getReg x == kk)
  | skipNeqImm x kk =>
    cases (exec_skipNeqImm_eq_skip x kk s).symm.trans he
    simpa using skip_pc_toNat hb (s.getReg x != kk)
  | skipEqReg x y =>
    cases (exec_skipEqReg_eq_skip x y s).symm.trans he
    simpa using skip_pc_toNat hb (s.getReg x == s.getReg y)
  | halt | loadImm x k | addImm x k | copy x y | orReg x y | andReg x y | xorReg x y | addReg x y | subReg x y =>
    cases he
    exact pc_add_toNat hb (n := 2) (by omega)

/-! ## What an instruction writes -/

/-- No instruction stores (20_memory.md section 3). -/
theorem exec_mem {i : Instr} {s t : State} (h : exec i s = .next t) : t.mem = s.mem := by
  obtain ⟨-, -, -, -, -, hm⟩ | ⟨-, rfl⟩ | ⟨-, -, rfl⟩ | ⟨_, -, -, rfl⟩ := exec_cases h
  · exact hm
  all_goals rfl

/-- What an instruction does to the stack: nothing; RET lowers sp and keeps the entries; CALL writes the entry at sp and raises it. -/
theorem exec_stack_cases {i : Instr} {s t : State} (h : exec i s = .next t) :
    SameStack s t ∨ (i = .ret ∧ s.sp.val = t.sp.val + 1 ∧ t.stack = s.stack) ∨
      ∃ nnn, i = .call nnn ∧ t.sp.val = s.sp.val + 1 ∧
        ∃ hsp : s.sp.val < 16, t.stack = s.stack.set s.sp.val (s.pc + 2#16) hsp := by
  cases i with
  | ret =>
    obtain ⟨-, rfl⟩ | ⟨n, hn, hsp, rfl⟩ := exec_ret_cases h
    · exact .inl ⟨rfl, rfl⟩
    · exact .inr (.inl ⟨rfl, hsp, rfl⟩)
  | call nnn =>
    obtain ⟨-, rfl⟩ | ⟨hsp, rfl⟩ := exec_call_cases h
    · exact .inl ⟨rfl, rfl⟩
    · exact .inr (.inr ⟨nnn, rfl, rfl, hsp, rfl⟩)
  | skipEqImm x k | skipNeqImm x k | skipEqReg x y =>
    cases h
    exact .inl (onlyPcAndRegs_skip s _).2.2.1
  | halt | jmp n | loadImm x k | addImm x k | copy x y | orReg x y | andReg x y | xorReg x y | addReg x y | subReg x y =>
    cases h
    exact .inl ⟨rfl, rfl⟩

/-- Settles O44: the written registers, the absent store, the stack's two instructions, and the three that reach status or record. -/
theorem instructionsWriteOnlyTheirListedState : Obligations.InstructionsWriteOnlyTheirListedState := by
  intro i s t h
  refine ⟨exec_keeps_unwritten h, fun a => by rw [exec_mem h], fun hcall hret => ?stack, fun hhalt hcall hret => ?status⟩
  case stack =>
    obtain hs | ⟨rfl, -⟩ | ⟨nnn, rfl, -⟩ := exec_stack_cases h
    · exact hs
    · exact absurd rfl hret
    · exact absurd rfl hcall
  case status =>
    obtain ⟨-, hst, hc, hw, ha, -⟩ | ⟨rfl, -⟩ | ⟨rfl, -⟩ | ⟨nnn, rfl, -⟩ := exec_cases h
    · exact ⟨hst, hc, hw, ha⟩
    · exact absurd rfl hhalt
    · exact absurd rfl hret
    · exact absurd rfl hcall

/-! ## What an instruction reads -/

/-- Settles O45: the other value is covered by the instruction's own write to the register, or stands there afterwards. -/
theorem instructionsReadOnlyTheirListedRegisters : Obligations.InstructionsReadOnlyTheirListedRegisters := by
  intro i s t r v hr h
  refine ⟨_, exec_setReg_of_not_read v hr h, ?_⟩
  split
  next hw =>
    exact ⟨rfl, ⟨rfl, rfl⟩, ⟨rfl, rfl, rfl, rfl⟩, fun _ => rfl, fun _ _ => rfl, fun hnw => absurd hw hnw⟩
  next hw =>
    refine ⟨rfl, ⟨rfl, rfl⟩, ⟨rfl, rfl, rfl, rfl⟩, fun _ => rfl, fun q hq => getReg_setReg_ne t v ?_, fun _ => getReg_setReg_self t r v⟩
    rintro rfl
    exact hq.elim hw (· rfl)

/-! ## Result and flag together (44_alu_register.md section 3) -/

/-- Settles O42: the sum is less than 512 and the difference more than -257, so one flag bit makes up for the reduction modulo 256. -/
theorem resultAndFlagGiveTheExactValue : Obligations.ResultAndFlagGiveTheExactValue := by
  intro x y s hx
  obtain ⟨t, ht, hsum, hcarry, -⟩ := addRegWritesSumThenCarry.2 x y s
  obtain ⟨u, hu, hdiff, hborrow, -⟩ := subRegWritesDifferenceThenBorrow.2 x y s
  have ha := (s.getReg x).isLt
  have hb := (s.getReg y).isLt
  refine ⟨t, u, ht, hu, ?sum, ?difference⟩
  case sum =>
    rw [hsum hx, hcarry]
    split <;> simp only [BitVec.toNat_ofNat] <;> omega
  case difference =>
    rw [hdiff hx, hborrow]
    split <;> simp only [BitVec.toNat_ofNat] <;> omega

/-- Adding what was subtracted carries exactly where the subtraction borrowed. -/
theorem addOv_subOv_flag (a b : Byte) : (addOv ((subOv (a, b)).1, b)).2 = (subOv (a, b)).2 := by
  have ha := a.isLt
  have hb := b.isLt
  have hdiff := subOv_fst_toNat a b
  exact decide_eq_decide.2 (show (subOv (a, b)).1.toNat + b.toNat > 255 ↔ a.toNat < b.toNat by omega)

/-- Settles O43: ADD_REG finds the difference in `V[x]` and the old `V[y]`, and adds back what SUB_REG took. -/
theorem subThenAddRestoresTheRegister : Obligations.SubThenAddRestoresTheRegister := by
  intro x y s hxy hx hy
  have hdest : (s.applyBinary x y subOv).getReg x = (subOv (s.getReg x, s.getReg y)).1 := applyBinary_getReg_self s y subOv hx
  have hsrc : (s.applyBinary x y subOv).getReg y = s.getReg y :=
    applyBinary_getReg_of_notMem s y subOv (by simp [hxy.symm, hy])
  refine ⟨_, _, exec_subReg_eq_applyBinary x y s, exec_addReg_eq_applyBinary x y _, ?restored, ?flags⟩
  case restored => rw [applyBinary_getReg_self _ y addOv hx, hdest, hsrc, addOv_fst, subOv_fst, BitVec.sub_add_cancel]
  case flags => rw [applyBinary_flag, applyBinary_flag, hdest, hsrc, addOv_subOv_flag]

end Sys2Proof.Machine

/-!
The invariants of 10_state.md section 8 and the fit of the fault record to its cause (60_exceptions.md section 1): both hold at reset, every
step and every transaction keeps them, and so they hold in every reachable state.
-/

namespace Sys2Proof.Machine

/-! ## The invariants over a step -/

/-- While RUNNING no fault is recorded. -/
theorem noFault_of_running {s : State} (hs : Inv s) (hr : s.status = .running) : s.faultCause = .noFault :=
  hs.cause.2 (by simp [hr])

/-- Fault entry keeps the invariants: it records a cause and A, and leaves pc at A (R190). -/
theorem inv_takeFault {s : State} (hs : Inv s) {cause : FaultCause} (hc : cause ≠ .noFault) (word : Word) :
    Inv (s.takeFault cause word) :=
  ⟨hs.memory, iff_of_false hc (fun h => h rfl), hs.pc, hs.stack, fun _ => rfl⟩

/-- Where a step completes, pc is at most a skip's target past the last word of memory: an address, a stack entry, A + 2 or A + 4. -/
theorem pc_le_of_completes {s t : State} {i : Instr} (hs : Inv s) (hr : s.status = .running)
    (hf : s.fetchChecked = some (encode i)) (h : step s = .next t) (hok : t.status ≠ .faulted) : t.pc.toNat ≤ 0x1002 := by
  have hb := in_bounds_of_fetchChecked hf
  have hpc := programCounterMuxSelectsByOperation s t i hr hf h hok
  cases i with
  | jmp nnn | call nnn =>
    have hnnn := nnn.isLt
    simp only at hpc
    omega
  | ret =>
    obtain ⟨n, hn, -, hentry⟩ := hpc
    have := hs.stack n hn
    rw [hentry]
    omega
  | skipEqImm x kk | skipNeqImm x kk | skipEqReg x y =>
    simp only at hpc
    split at hpc <;> omega
  | halt | loadImm x k | addImm x k | copy x y | orReg x y | andReg x y | xorReg x y | addReg x y | subReg x y =>
    simp only at hpc
    omega

/-- Where the fetch is in bounds, an instruction leaves stack entries of at most 0x1000: the one a CALL writes is A + 2. -/
theorem exec_stack_le {i : Instr} {s t : State} (hs : Inv s) (hb : s.pc.toNat + 1 < 0x1000) (h : exec i s = .next t) (j : Nat)
    (hj : j < 16) : (t.stack[j]).toNat ≤ 0x1000 := by
  have hold := hs.stack j hj
  obtain ⟨-, hstack⟩ | ⟨-, -, hstack⟩ | ⟨_, -, -, hsp, hstack⟩ := exec_stack_cases h
  · simpa only [hstack] using hold
  · simpa only [hstack] using hold
  · simp only [hstack, Vector.getElem_set]
    split
    · have := pc_add_toNat hb (n := 2) (by omega)
      omega
    · exact hold

/-- Settles O20: fault entry keeps the invariants, HALT and a completing instruction record nothing and keep pc and stack in their bounds, and
a stopped core keeps its state. -/
theorem stepKeepsTheInvariants : Obligations.StepKeepsTheInvariants := by
  intro s t hs h
  by_cases hr : s.status = .running
  case neg =>
    cases (step_of_ne_running hr).symm.trans h
    exact hs
  have hcause := noFault_of_running hs hr
  cases runningStep_of_step hr h with
  | fetchFault | illegal | overflow | underflow => exact inv_takeFault hs (by simp) _
  | halt hf =>
    exact ⟨hs.memory, iff_of_true hcause (by simp), pc_le_of_completes hs hr hf h (by simp), hs.stack, by simp⟩
  | completes i hf _ he hst hm =>
    have hrun : t.status = .running := hst.1.trans hr
    exact ⟨hm ▸ hs.memory, iff_of_true (hst.2.1.trans hcause) (by simp [hrun]),
      pc_le_of_completes hs hr hf h (by simp [hrun]), exec_stack_le hs (in_bounds_of_fetchChecked hf) he, by simp [hrun]⟩

/-! ## The fault record over a step -/

/-- What the row of one cause says of a state's fault record and stack pointer (the table of R181). -/
def State.RecordFits (s : State) : FaultCause → Prop
  | .noFault => s.faultWord = 0x0000#16 ∧ s.faultAddr = 0x0000#16
  | .outOfBoundsFetch => s.faultWord = 0x0000#16 ∧ 0x0FFF ≤ s.faultAddr.toNat
  | .unknownOpcode => decodeWord s.faultWord = .rejected (.unknownOpcode s.faultWord)
  | .stackOverflow => s.sp.val = 16 ∧ ∃ nnn, decodeWord s.faultWord = .ok (.call nnn)
  | .stackUnderflow => s.sp.val = 0 ∧ decodeWord s.faultWord = .ok .ret

/-- The record fits its cause where the row of the recorded cause holds. -/
theorem recordInv_iff_recordFits (s : State) : RecordInv s ↔ s.RecordFits s.faultCause := by
  constructor
  · intro h
    cases hc : s.faultCause with
    | noFault => exact h.noFault hc
    | outOfBoundsFetch => exact h.outOfBoundsFetch hc
    | unknownOpcode => exact h.unknownOpcode hc
    | stackOverflow => exact h.stackOverflow hc
    | stackUnderflow => exact h.stackUnderflow hc
  · intro h
    constructor <;> intro hc <;> rw [hc] at h <;> exact h

/-- With no recorded cause, the fit is a matter of the record alone, wherever the stack pointer goes. -/
theorem recordInv_of_noFault {s t : State} (hs : RecordInv s) (hnone : s.faultCause = .noFault) (hc : t.faultCause = s.faultCause)
    (hw : t.faultWord = s.faultWord) (ha : t.faultAddr = s.faultAddr) : RecordInv t := by
  rw [recordInv_iff_recordFits, hc, hnone, State.RecordFits, hw, ha]
  exact hs.noFault hnone

/-- Settles O58: each fault entry writes the row of its cause, and any other step of a running core leaves the record of no fault. -/
theorem stepKeepsTheFaultRecord : Obligations.StepKeepsTheFaultRecord := by
  intro s t hs hrec h
  by_cases hr : s.status = .running
  case neg =>
    cases (step_of_ne_running hr).symm.trans h
    exact hrec
  have hnone := noFault_of_running hs hr
  cases runningStep_of_step hr h with
  | fetchFault hf => exact (recordInv_iff_recordFits _).2 ⟨rfl, (fetchChecked_eq_none_iff s).1 hf⟩
  | illegal w _ hd => exact (recordInv_iff_recordFits _).2 hd
  | overflow nnn _ hsp => exact (recordInv_iff_recordFits _).2 ⟨hsp, nnn, decodeWord_encode _⟩
  | underflow _ hsp => exact (recordInv_iff_recordFits _).2 ⟨hsp, decodeWord_encode _⟩
  | halt => exact recordInv_of_noFault hrec hnone rfl rfl rfl
  | completes _ _ _ _ hst =>
    obtain ⟨-, hc, hw, ha⟩ := hst
    exact recordInv_of_noFault hrec hnone hc hw ha

/-! ## Reset and the transactions -/

/-- The invariants hold at reset. -/
theorem inv_reset : Inv State.reset :=
  ⟨reset_memory_wf, by decide, by decide, fun j hj => by simp [State.reset], by decide⟩

/-- The record of no fault fits at reset. -/
theorem recordInv_reset : RecordInv State.reset := (recordInv_iff_recordFits _).2 ⟨rfl, rfl⟩

/-- Settles O19: at reset memory is empty, pc and stack are zero, and nothing is recorded. -/
theorem invariantsHoldAtReset : Obligations.InvariantsHoldAtReset := ⟨inv_reset, recordInv_reset⟩

/-- Settles O21: a memory write keeps the canonical form, a register write touches nothing the invariants speak of, and `start` is accepted
only where no fault is recorded. -/
theorem transactionsKeepTheInvariants : Obligations.TransactionsKeepTheInvariants := by
  intro s tr hs
  obtain ⟨-, h⟩ | ⟨a, b, -, -, h⟩ | ⟨i, b, -, -, h⟩ | ⟨-, hst, h⟩ | ⟨-, -, h⟩ := transact_cases s tr <;> rw [h]
  · exact inv_reset
  · exact ⟨write_wf a.isLt hs.memory, hs.cause, hs.pc, hs.stack, hs.faultAddr⟩
  · exact ⟨hs.memory, hs.cause, hs.pc, hs.stack, hs.faultAddr⟩
  · have hnone : s.faultCause = .noFault := hs.cause.2 (by obtain hst | hst := hst <;> simp [hst])
    exact ⟨hs.memory, iff_of_true hnone (by simp), hs.pc, hs.stack, by simp⟩
  · exact hs

/-- Settles O59: a transaction other than reset leaves the record and the stack pointer. -/
theorem transactionsKeepTheFaultRecord : Obligations.TransactionsKeepTheFaultRecord := by
  intro s tr _ hrec
  obtain ⟨-, h⟩ | ⟨a, b, -, -, h⟩ | ⟨i, b, -, -, h⟩ | ⟨-, -, h⟩ | ⟨-, -, h⟩ := transact_cases s tr <;> rw [h]
  · exact recordInv_reset
  all_goals exact ⟨hrec.noFault, hrec.outOfBoundsFetch, hrec.unknownOpcode, hrec.stackOverflow, hrec.stackUnderflow⟩

/-! ## Histories -/

/-- The state after a step of the core is the one the step answers. -/
theorem step_eq_after (s : State) : step s = .next (s.after .coreStep) := by
  obtain ⟨t, ht⟩ := step_answers s
  simp only [State.after, ht]

/-- A step of a core that is not RUNNING leaves the state (log 1). -/
theorem after_coreStep_of_ne_running {s : State} (h : s.status ≠ .running) : s.after .coreStep = s :=
  Host.Outcome.next.inj ((step_eq_after s).symm.trans (step_of_ne_running h))

/-- What every event keeps holds after every history from where it held. -/
theorem afterAll_keeps {P : State → Prop} (hevent : ∀ s e, P s → P (s.after e)) {s : State} (h : P s) (es : List Event) :
    P (s.afterAll es) := by
  induction es generalizing s with
  | nil => exact h
  | cons e es ih => exact ih (hevent s e h)

/-- Every event keeps the invariants and the fit of the record. -/
theorem after_keeps_inv_recordInv (s : State) (e : Event) (h : Inv s ∧ RecordInv s) : Inv (s.after e) ∧ RecordInv (s.after e) := by
  obtain ⟨hs, hrec⟩ := h
  cases e with
  | coreStep => exact ⟨stepKeepsTheInvariants s _ hs (step_eq_after s), stepKeepsTheFaultRecord s _ hs hrec (step_eq_after s)⟩
  | host tr => exact ⟨transactionsKeepTheInvariants s tr hs, transactionsKeepTheFaultRecord s tr hs hrec⟩

/-- Settles O22: they hold at reset, and every event of a history keeps them. -/
theorem invariantsHoldInEveryReachableState : Obligations.InvariantsHoldInEveryReachableState := by
  rintro s ⟨es, rfl⟩
  obtain ⟨hs, hrec⟩ := afterAll_keeps (P := fun s => Inv s ∧ RecordInv s) after_keeps_inv_recordInv invariantsHoldAtReset es
  exact ⟨hs, hrec.noFault, hrec.outOfBoundsFetch, hrec.unknownOpcode, hrec.stackOverflow, hrec.stackUnderflow⟩

end Sys2Proof.Machine

/-!
Reset, the host's transactions, histories and runs (10_state.md sections 6 and 7; 20_memory.md sections 3 and 4; 70_reset_and_hazards.md): what
one event does to memory and status, and what follows by induction over a history or over the steps of a run.
-/

namespace Sys2Proof.Machine

/-! ## Reset, reads, writes and `start` -/

/-- Every stack entry is zero at reset (R43). -/
theorem reset_stack_getElem (j : Nat) (h : j < 16) : State.reset.stack[j] = 0x0000#16 := Vector.getElem_replicate h

/-- Settles O47: the transaction answers the reset state, whose memory lists nothing. -/
theorem resetClearsEveryPieceOfState : Obligations.ResetClearsEveryPieceOfState := fun _ =>
  ⟨reset_getReg, fun _ => rfl, reset_stack_getElem, rfl, rfl, rfl, rfl, rfl, rfl⟩

/-- `isRunning` in terms of `status` (R33). -/
theorem isRunning_eq_decide (s : State) : s.isRunning = decide (s.status = .running) := rfl

/-- A memory write that is accepted (R40). -/
theorem transact_writeMem {s : State} (h : s.status ≠ .running) (a : Addr) (b : Byte) :
    s.transact (.writeMem a b) = { s with mem := Memory.write s.mem a.toNat b } :=
  if_neg (by simpa [isRunning_eq_decide] using h)

/-- A register write that is accepted (R40). -/
theorem transact_writeReg {s : State} (h : s.status ≠ .running) (i : RegIdx) (b : Byte) :
    s.transact (.writeReg i b) = s.setReg i b :=
  if_neg (by simpa [isRunning_eq_decide] using h)

/-- A memory write while RUNNING is ignored (D10). -/
theorem transact_writeMem_running {s : State} (h : s.status = .running) (a : Addr) (b : Byte) : s.transact (.writeMem a b) = s :=
  if_pos (by simpa [isRunning_eq_decide] using h)

/-- A register write while RUNNING is ignored (D10). -/
theorem transact_writeReg_running {s : State} (h : s.status = .running) (i : RegIdx) (b : Byte) : s.transact (.writeReg i b) = s :=
  if_pos (by simpa [isRunning_eq_decide] using h)

/-- Settles O48: an accepted write is one write to memory or to the register file, an ignored one leaves the state. -/
theorem hostWritesReachOneByteOrRegister : Obligations.HostWritesReachOneByteOrRegister := by
  refine ⟨fun s a b hr hm => ?memory, fun s i b hr => ?register, fun s a i b hr =>
    ⟨transact_writeMem_running hr a b, transact_writeReg_running hr i b⟩⟩
  case memory =>
    rw [transact_writeMem hr]
    exact ⟨fun a' => read_write hm a.toNat a' b, rfl⟩
  case register =>
    rw [transact_writeReg hr]
    exact ⟨fun r => getReg_setReg s i r b, rfl⟩

/-- A read is answered with the item's value while the core is not RUNNING (R41). -/
theorem hostRead_eq_some {s : State} (h : s.status ≠ .running) (w : ReadSelect) : s.hostRead w = some (s.readValue w) :=
  if_neg (by simpa [isRunning_eq_decide] using h)

/-- A read is not offered exactly while RUNNING (R41, D10). -/
theorem hostRead_eq_none_iff (s : State) (w : ReadSelect) : s.hostRead w = none ↔ s.status = .running := by
  simp [State.hostRead, isRunning_eq_decide]

/-- The read port delivers the stack pointer as a number. -/
theorem readValue_sp_toNat (s : State) : (s.readValue .sp).toNat = s.sp.val := by
  have := s.sp.isLt
  simp only [State.readValue, BitVec.toNat_ofNat]
  omega

/-- The read port delivers the stack entry of the index. -/
theorem readValue_stackEntry (s : State) {j : Nat} (h : j < 16) : s.readValue (.stackEntry (BitVec.ofNat 4 j)) = s.stack[j] := by
  have hj : (BitVec.ofNat 4 j).toNat = j := by rw [BitVec.toNat_ofNat, Nat.mod_eq_of_lt h]
  simp only [State.readValue, hj]

/-- Settles O49: a read not while RUNNING answers the item's value, whose number is the item's. -/
theorem hostReadsDeliverTheStateUnchanged : Obligations.HostReadsDeliverTheStateUnchanged := by
  refine ⟨hostRead_eq_none_iff, fun _ _ => rfl, fun s a i j hj hr => ?values, fun _ => rfl, ⟨rfl, rfl, rfl, rfl⟩,
    rfl, rfl, rfl, rfl, rfl⟩
  case values =>
    have hread := hostRead_eq_some hr
    have byte (v : Byte) : (byteToWord v).toNat = v.toNat := BitVec.toNat_setWidth_of_le (show 8 ≤ 16 by decide)
    exact ⟨⟨_, hread _, byte _⟩, ⟨_, hread _, byte _⟩, (hread _).trans (congrArg some (readValue_stackEntry s hj)), hread _,
      ⟨_, hread _, readValue_sp_toNat s⟩, ⟨_, hread _, BitVec.toNat_setWidth_of_le (show 2 ≤ 16 by decide)⟩,
      ⟨_, hread _, BitVec.toNat_setWidth_of_le (show 3 ≤ 16 by decide)⟩, hread _, hread _⟩

/-- `start` where it is accepted (R228). -/
theorem transact_start {s : State} (h : s.status = .idle ∨ s.status = .halted) : s.transact .start = s.setStatus .running := by
  obtain h | h := h <;> simp only [State.transact, State.hostStart, h]

/-- `start` where it is ignored (R230, D9). -/
theorem transact_start_ignored {s : State} (h : s.status = .running ∨ s.status = .faulted) : s.transact .start = s := by
  obtain h | h := h <;> simp only [State.transact, State.hostStart, h]

/-- Settles O52: an accepted `start` is one write of the status. -/
theorem startSetsRunningAndNothingElse : Obligations.StartSetsRunningAndNothingElse := by
  refine fun s => ⟨fun h => ?_, transact_start_ignored⟩
  rw [transact_start h]
  exact ⟨rfl, rfl⟩

/-! ## How `status` moves -/

/-- A running step ends RUNNING, HALTED or FAULTED. -/
theorem status_of_runningStep {s t : State} (hr : s.status = .running) (h : step s = .next t) :
    t.status = .running ∨ t.status = .halted ∨ t.status = .faulted := by
  obtain ⟨-, -, -, -, -, -, hst⟩ := runningCoreStopsOnlyOnHaltOrAFault s t hr h
  exact hst

/-- Settles O50: a stopped core keeps its state, a running step ends in one of three statuses, and of the transactions only reset and an
accepted `start` write the status. -/
theorem statusMovesOnlyAsListed : Obligations.StatusMovesOnlyAsListed := by
  intro s e hne
  cases e with
  | coreStep =>
    by_cases hr : s.status = .running
    · obtain hst | hst := status_of_runningStep hr (step_eq_after s)
      · exact absurd (hst.trans hr.symm) hne
      · exact .inr (.inr ⟨rfl, hr, hst⟩)
    · exact absurd (congrArg State.status (after_coreStep_of_ne_running hr)) hne
  | host tr =>
    change (s.transact tr).status ≠ s.status at hne
    obtain ⟨rfl, -⟩ | ⟨a, b, -, -, h⟩ | ⟨i, b, -, -, h⟩ | ⟨rfl, hst, h⟩ | ⟨-, -, h⟩ := transact_cases s tr
    · exact .inl ⟨rfl, rfl⟩
    · exact absurd (congrArg State.status h) hne
    · exact absurd (congrArg State.status h) hne
    · exact .inr (.inl ⟨rfl, hst, congrArg State.status h⟩)
    · exact absurd (congrArg State.status h) hne

/-- What a FAULTED state keeps until a reset (R191, D9): status, fault record, pc and stack. -/
def SameButRegsAndMemory (s t : State) : Prop := SameStatus s t ∧ t.pc = s.pc ∧ SameStack s t

theorem sameButRegsAndMemory_refl (s : State) : SameButRegsAndMemory s s := ⟨⟨rfl, rfl, rfl, rfl⟩, rfl, rfl, rfl⟩

theorem sameButRegsAndMemory_trans {s t u : State} (h : SameButRegsAndMemory s t) (h' : SameButRegsAndMemory t u) :
    SameButRegsAndMemory s u := by
  obtain ⟨⟨hst, hc, hw, ha⟩, hpc, hsp, hstack⟩ := h
  obtain ⟨⟨hst', hc', hw', ha'⟩, hpc', hsp', hstack'⟩ := h'
  exact ⟨⟨hst'.trans hst, hc'.trans hc, hw'.trans hw, ha'.trans ha⟩, hpc'.trans hpc, hsp'.trans hsp, hstack'.trans hstack⟩

/-- One event other than a reset leaves a FAULTED state FAULTED, and its record, pc and stack with it. -/
theorem after_sameButRegsAndMemory_of_faulted {s : State} {e : Event} (hf : s.status = .faulted) (he : e ≠ .host .reset) :
    SameButRegsAndMemory s (s.after e) := by
  cases e with
  | coreStep =>
    rw [after_coreStep_of_ne_running (by simp [hf])]
    exact sameButRegsAndMemory_refl s
  | host tr =>
    change SameButRegsAndMemory s (s.transact tr)
    obtain ⟨rfl, -⟩ | ⟨a, b, -, -, h⟩ | ⟨i, b, -, -, h⟩ | ⟨-, hst, -⟩ | ⟨-, -, h⟩ := transact_cases s tr
    · exact absurd rfl he
    on_goal 3 => simp [hf] at hst
    all_goals
      rw [h]
      exact ⟨⟨rfl, rfl, rfl, rfl⟩, rfl, rfl, rfl⟩

/-- Settles O51, by induction over the history: its first event leaves a FAULTED state to the rest. -/
theorem faultedIsLeftOnlyByReset : Obligations.FaultedIsLeftOnlyByReset := by
  intro es
  induction es with
  | nil => exact fun s _ _ => sameButRegsAndMemory_refl s
  | cons e es ih =>
    intro s hf hno
    obtain ⟨he, hes⟩ : Event.host .reset ≠ e ∧ Event.host .reset ∉ es := by simpa using hno
    have hevent := after_sameButRegsAndMemory_of_faulted hf he.symm
    have hstill : (s.after e).status = .faulted := hevent.1.1.trans hf
    exact sameButRegsAndMemory_trans hevent (ih (s.after e) hstill hes)

/-! ## Memory over events, histories and runs -/

/-- No step changes memory (R58). -/
theorem step_mem {s t : State} (h : step s = .next t) : t.mem = s.mem := by
  by_cases hr : s.status = .running
  · cases runningStep_of_step hr h with
    | fetchFault | illegal | overflow | underflow | halt => rfl
    | completes _ _ _ _ _ hm => exact hm
  · cases (step_of_ne_running hr).symm.trans h
    rfl

/-- Every event keeps memory canonical. -/
theorem after_mem_wf (s : State) (e : Event) (hm : Memory.wf s.mem = true) : Memory.wf (s.after e).mem = true := by
  cases e with
  | coreStep => rwa [step_mem (step_eq_after s)]
  | host tr =>
    change Memory.wf (s.transact tr).mem = true
    obtain ⟨-, h⟩ | ⟨a, b, -, -, h⟩ | ⟨i, b, -, -, h⟩ | ⟨-, -, h⟩ | ⟨-, -, h⟩ := transact_cases s tr <;> rw [h]
    · exact reset_memory_wf
    · exact write_wf a.isLt hm
    all_goals exact hm

/-- Of the transactions only reset and the memory write reach memory. -/
theorem transact_mem (s : State) {tr : Transaction} (hreset : tr ≠ .reset) (hwrite : ∀ a b, tr ≠ .writeMem a b) :
    (s.transact tr).mem = s.mem := by
  obtain ⟨rfl, -⟩ | ⟨a, b, rfl, -⟩ | ⟨i, b, -, -, h⟩ | ⟨-, -, h⟩ | ⟨-, -, h⟩ := transact_cases s tr
  · exact absurd rfl hreset
  · exact absurd rfl (hwrite a b)
  · rw [h, setReg_mem]
  · rw [h, setStatus_mem]
  · rw [h]

/-- Settles O60: the accepted memory write and the reset are the events that reach memory. -/
theorem eventGivesEachByteItsWrite : Obligations.EventGivesEachByteItsWrite := by
  intro s e a hm
  cases e with
  | coreStep => exact congrArg (Memory.read · a) (step_mem (step_eq_after s))
  | host tr =>
    cases tr with
    | reset => rfl
    | writeMem addr b =>
      by_cases hr : s.status = .running
      · simp [State.after, transact_writeMem_running hr, Event.byteFor, hr]
      · by_cases ha : addr.toNat = a
        · simp [State.after, transact_writeMem hr, Event.byteFor, hr, ha, read_write hm]
        · simp [State.after, transact_writeMem hr, Event.byteFor, ha, read_write hm, Ne.symm ha]
    | writeReg _ _ | read _ | start => exact congrArg (Memory.read · a) (transact_mem s (by simp) (by simp))

/-- From a canonical memory, a history leaves in each byte what its events gave it last, or what was there. -/
theorem afterAll_read (es : List Event) (s : State) (a : Nat) (hm : Memory.wf s.mem = true) :
    Memory.read (s.afterAll es).mem a = lastByteFor a s es (Memory.read s.mem a) := by
  induction es generalizing s with
  | nil => rfl
  | cons e es ih =>
    rw [State.afterAll, lastByteFor, ih (s.after e) (after_mem_wf s e hm), eventGivesEachByteItsWrite s e a hm]

/-- Settles O53: the history starts from reset's memory, which is canonical and reads as zero. -/
theorem memoryHoldsTheLastAcceptedWrite : Obligations.MemoryHoldsTheLastAcceptedWrite := fun es a =>
  afterAll_read es State.reset a reset_memory_wf

/-! ## Runs -/

/-- The steps of a run: the first from a RUNNING core, the others from what it answers. -/
theorem runSteps_succ_eq_some {n : Nat} {s t : State} (h : runSteps (n + 1) s = some t) :
    s.status = .running ∧ runSteps n (s.after .coreStep) = some t := by
  unfold runSteps at h
  rw [step_eq_after s, isRunning_eq_decide] at h
  by_cases hr : s.status = .running
  · exact ⟨hr, by simpa [hr] using h⟩
  · simp [hr] at h

/-- Settles O54, by induction over the steps: none changes memory. -/
theorem runsLeaveMemoryUnchanged : Obligations.RunsLeaveMemoryUnchanged := by
  intro n
  induction n with
  | zero =>
    rintro s t ⟨⟩
    rfl
  | succ n ih =>
    intro s t h
    obtain ⟨-, hrun⟩ := runSteps_succ_eq_some h
    exact (ih _ t hrun).trans (step_mem (step_eq_after s))

/-- A run that takes no step stands where it began, so a run from a stopped core does. -/
theorem runSteps_of_ne_running {n : Nat} {s t : State} (hs : s.status ≠ .running) (h : runSteps n s = some t) : t = s := by
  cases n with
  | zero => exact (Option.some.inj h).symm
  | succ n => exact absurd (runSteps_succ_eq_some h).1 hs

/-- Two stopped ends of one run are the same, since while it goes on both runs take the same step. -/
theorem runSteps_end_unique {n m : Nat} {s t u : State} (ht : runSteps n s = some t) (htr : t.status ≠ .running)
    (hu : runSteps m s = some u) (hur : u.status ≠ .running) : t = u := by
  induction n generalizing s m with
  | zero =>
    cases ht
    exact (runSteps_of_ne_running htr hu).symm
  | succ n ih =>
    obtain ⟨hr, ht'⟩ := runSteps_succ_eq_some ht
    cases m with
    | zero =>
      cases hu
      exact absurd hr hur
    | succ m => exact ih ht' (runSteps_succ_eq_some hu).2

/-- The end of a run is a stopped state that steps reach (R228). -/
theorem exists_runSteps_of_end {s t : State} (h : RunHalts s t ∨ RunFails s t) :
    ∃ n, runSteps n s = some t ∧ t.status ≠ .running := by
  obtain ⟨n, hn, hst⟩ | ⟨n, hn, hst⟩ := h <;> exact ⟨n, hn, by simp [hst]⟩

/-- Settles O55: two stopped ends of one run are the same, no status is both HALTED and FAULTED, and a stopped core keeps its state. -/
theorem runEndsAtMostOnce : Obligations.RunEndsAtMostOnce := by
  intro s t u ht hu
  obtain ⟨n, hn, htr⟩ := exists_runSteps_of_end ht
  obtain ⟨m, hm, hur⟩ := exists_runSteps_of_end hu
  refine ⟨runSteps_end_unique hn htr hm hur, ?_, step_of_ne_running htr⟩
  rintro ⟨⟨_, _, hhalted⟩, ⟨_, _, hfaulted⟩⟩
  cases hhalted.symm.trans hfaulted

/-- A RUNNING core that fetches the halt word halts in one step. -/
theorem runSteps_one_halt {s : State} (hr : s.status = .running) (hf : s.fetchChecked = some (encode .halt)) :
    runSteps 1 s = some (s.advancePc.setStatus .halted) := by
  have hstep : step s = .next (s.advancePc.setStatus .halted) := step_of_fetched_instr hr hf
  simp [runSteps, isRunning_eq_decide, hr, hstep]

/-- Settles O56: unloaded memory reads as the halt word at pc 0 and, after the first HALT, at pc 2. -/
theorem unloadedMemoryHaltsAtOnce : Obligations.UnloadedMemoryHaltsAtOnce :=
  ⟨_, _, runSteps_one_halt rfl rfl, rfl, rfl, fun _ _ => rfl, fun _ => rfl, ⟨rfl, rfl⟩, runSteps_one_halt rfl rfl, rfl, rfl⟩

/-! ## The placed word -/

/-- The word is placed where a fetch succeeds: at pc, or at the entry point (log 3). -/
theorem placeWord_in_bounds (s : State) (w : Word) : (s.placeWord w).pc.toNat + 1 < 0x1000 := by
  change (if s.fetchInBounds then s.pc else Config.resetPc).toNat + 1 < 0x1000
  split
  next h => exact of_decide_eq_true h
  next => decide

/-- The placed word's bytes lie at the pc it is placed at, high byte first (R53). -/
theorem placeWord_mem (s : State) (w : Word) : (s.placeWord w).mem =
    Memory.write (Memory.write s.mem (s.placeWord w).pc.toNat (highByte w)) ((s.placeWord w).pc.toNat + 1) (lowByte w) := rfl

/-- The fetch answers the placed word. -/
theorem placeWord_fetchChecked {s : State} (hm : Memory.wf s.mem = true) (w : Word) : (s.placeWord w).fetchChecked = some w := by
  have hb := placeWord_in_bounds s w
  have hwf : Memory.wf (Memory.write s.mem (s.placeWord w).pc.toNat (highByte w)) = true := write_wf (Nat.lt_of_succ_lt hb) hm
  have hhigh : Memory.read (s.placeWord w).mem (s.placeWord w).pc.toNat = highByte w := by
    rw [placeWord_mem, read_write hwf, if_neg (Nat.ne_add_one _), read_write hm, if_pos rfl]
  have hlow : Memory.read (s.placeWord w).mem ((s.placeWord w).pc.toNat + 1) = lowByte w := by
    rw [placeWord_mem, read_write hwf, if_pos rfl]
  rw [fetchChecked_in_bounds hb, hhigh, hlow, wordOfBytes_high_low]

/-- A table word that decodes does so as the word it stands for (R53, R75). -/
theorem decodeWord_of_decodeTableWord {nbits w : Nat} {i : Instr} (h : decodeTableWord nbits w = some i) :
    decodeWord (tableWord nbits w) = .ok i := by
  unfold decodeTableWord at h
  split at h
  next j rest hd =>
    cases h
    have hw := decodeWord_of_decodeBytes hd
    rwa [wordOfBytes_high_low] at hw
  next => cases h

/-- Settles O57: the core is RUNNING, and the fetch answers the placed word. -/
theorem placedInstructionRunsNext : Obligations.PlacedInstructionRunsNext := fun _ _ _ hm hd =>
  step_of_decoded rfl (placeWord_fetchChecked hm _) (decodeWord_of_decodeTableWord hd)

end Sys2Proof.Machine
